-- ==== Sys2Proof/Word.lean ====
section
/-! DEFINITION. The bit patterns of the machine: registers and memory words, bytes, and the three field widths of an
instruction word (00_scope.md R3, 30_encoding.md R50). -/

namespace Sys2Proof

/-- A 32-bit pattern: a register, a memory word, the program counter, an instruction word. `toNat` is the spec's
`u32`, `toInt` its `s32` (00_scope.md, section 5). -/
abbrev Word := BitVec 32

/-- One byte of data memory (20_memory.md R32). -/
abbrev Byte := BitVec 8

/-- The 5-bit `opcode` field (30_encoding.md R50). -/
abbrev OpcodeField := BitVec 5

/-- A 5-bit register field, `r1` or `r2`, with any value 0 to 31 (30_encoding.md R50). -/
abbrev RegField := BitVec 5

/-- The 16-bit immediate field (30_encoding.md R50, R53). -/
abbrev Imm16 := BitVec 16

end Sys2Proof
end

