-- ==== Sys2Proof/Config.lean ====
section
/-! DEFINITION. The parameters of 00_scope.md R3 that the source fixes, the types of the parameters the spec decides
(their values are in Machine/Params.lean, `OPCODE_MAP` and `PC_BITS` among them), and the two OPEN parameters, which are
constants without a body. XLEN and ILEN (32) and NREGS (17) are the types `Word` and `Vector Word 17`. -/

namespace Sys2Proof.Config

/-- The two values of `IMM_EXT_DATA` (00_scope.md R3, decision D3). -/
inductive ImmExt where
  | zext
  | sext
  deriving DecidableEq, Repr

/-- A byte order, for `DATA_BYTE_ORDER` and `IMAGE_BYTE_ORDER` (00_scope.md R3). -/
inductive ByteOrder where
  | littleEndian
  | bigEndian
  deriving DecidableEq, Repr, Inhabited

/-- `NGPR`: indices 0 to 15 are the registers an instruction may name (00_scope.md R3). -/
abbrev ngpr : Nat := 16

/-- `SP`: the index of the stack pointer (00_scope.md R3, 10_state.md R12). -/
abbrev sp : Fin 17 := 6

/-- `FLAGS`: the index of the flags register (00_scope.md R3, 10_state.md R15). -/
abbrev flags : Fin 17 := 16

/-- `MEM_SIZE`: bytes of data memory (00_scope.md R3, 20_memory.md R32). -/
abbrev memSize : Nat := 1024

/-- The largest legal instruction count: `0 <= N <= 2^30 - 1` (00_scope.md R3, decision D13). -/
abbrev maxWords : Nat := 2 ^ 30 - 1

/-- What a data byte that nothing has written holds: "every byte 0x00" (10_state.md R23). -/
abbrev resetByte : Byte := 0

/-- `IMAGE_BYTE_ORDER`: OPEN, no default (00_scope.md R3, decision D11). A free value: log 20. -/
opaque imageByteOrder : ByteOrder

/-- `EXIT_STATUS_END`: OPEN, no default (00_scope.md R3, decision D16). A free value: log 19. -/
opaque exitStatusEnd : Int

end Sys2Proof.Config
end

