-- ==== Sys2Proof/Syntax.lean ====
section
/-! DEFINITION. The instruction set as syntax: one constructor for each row of spec/opcode_table.json, with the USED fields
of its instruction word (30_encoding.md R55). A field an instruction does not use is ignored entirely (R54, R57) and is not
kept; the raw word stays in the instruction store (log 6). -/

namespace Sys2Proof

/-- The 22 operations and the ten opcode values that `OPCODE_MAP` leaves unassigned, in rising order: 22 to 31 under the
default map, which name them (30_encoding.md R55; 46_unrecognized.md R108). A register field may hold 0 to 31: the range
check belongs to execution (30_encoding.md R50, 60_exceptions.md R112). -/
inductive Instr where
  /-- `subl`: subtract an immediate from `r1` (R80). -/
  | subl (r1 : RegField) (imm : Imm16)
  /-- `addl_reg_reg`: add `r1` into `r2` (R81). -/
  | addlRegReg (r1 : RegField) (r2 : RegField)
  /-- `addl_imm_reg`: add an immediate to `r1` (R82). -/
  | addlImmReg (r1 : RegField) (imm : Imm16)
  /-- `imull`: multiply `r2` by `r1` (R83). -/
  | imull (r1 : RegField) (r2 : RegField)
  /-- `shrl`: logical right shift of `r1` by one (R84). -/
  | shrl (r1 : RegField)
  /-- `movl_reg_reg`: copy `r1` to `r2` (R85). -/
  | movlRegReg (r1 : RegField) (r2 : RegField)
  /-- `movl_deref_reg`: load `r2` from the word at `x[r1]` plus offset (R86). -/
  | movlDerefReg (r1 : RegField) (r2 : RegField) (imm : Imm16)
  /-- `movl_reg_deref`: store `r1` to the word at `x[r2]` plus offset (R87). -/
  | movlRegDeref (r1 : RegField) (r2 : RegField) (imm : Imm16)
  /-- `movl_imm_reg`: load a 16-bit constant into `r1` (R88). -/
  | movlImmReg (r1 : RegField) (imm : Imm16)
  /-- `cmpl`: compare `r2` with `r1`, set the flags (R90). -/
  | cmpl (r1 : RegField) (r2 : RegField)
  /-- `je`: branch if equal (R92). -/
  | je (imm : Imm16)
  /-- `jl`: branch if less (signed) (R93). -/
  | jl (imm : Imm16)
  /-- `jle`: branch if less or equal (signed) (R94). -/
  | jle (imm : Imm16)
  /-- `jge`: branch if greater or equal (signed) (R95). -/
  | jge (imm : Imm16)
  /-- `jbe`: branch if below or equal (unsigned) (R96). -/
  | jbe (imm : Imm16)
  /-- `jmp`: branch (R97). -/
  | jmp (imm : Imm16)
  /-- `call`: push the return address and branch (R100). -/
  | call (imm : Imm16)
  /-- `ret`: halt if the stack is empty, else pop the pc (R101). -/
  | ret
  /-- `pushl`: push `r1` (R102). -/
  | pushl (r1 : RegField)
  /-- `popl`: pop into `r1` (R103). -/
  | popl (r1 : RegField)
  /-- `printr`: emit `r1` to the output channel (R105). -/
  | printr (r1 : RegField)
  /-- `readr`: read the input channel into `r1` (R106). -/
  | readr (r1 : RegField)
  /-- `unrecognized_22`: opcode value 22 under the default map has no mnemonic: no operation (R108). -/
  | unrecognized22
  /-- `unrecognized_23`: opcode value 23 under the default map has no mnemonic: no operation (R108). -/
  | unrecognized23
  /-- `unrecognized_24`: opcode value 24 under the default map has no mnemonic: no operation (R108). -/
  | unrecognized24
  /-- `unrecognized_25`: opcode value 25 under the default map has no mnemonic: no operation (R108). -/
  | unrecognized25
  /-- `unrecognized_26`: opcode value 26 under the default map has no mnemonic: no operation (R108). -/
  | unrecognized26
  /-- `unrecognized_27`: opcode value 27 under the default map has no mnemonic: no operation (R108). -/
  | unrecognized27
  /-- `unrecognized_28`: opcode value 28 under the default map has no mnemonic: no operation (R108). -/
  | unrecognized28
  /-- `unrecognized_29`: opcode value 29 under the default map has no mnemonic: no operation (R108). -/
  | unrecognized29
  /-- `unrecognized_30`: opcode value 30 under the default map has no mnemonic: no operation (R108). -/
  | unrecognized30
  /-- `unrecognized_31`: opcode value 31 under the default map has no mnemonic: no operation (R108). -/
  | unrecognized31
  deriving DecidableEq, Repr

/-- The 22 mnemonics of the instruction set, in the order of the source's table (00_scope.md R2; 30_encoding.md R55). -/
inductive Mnemonic where
  | subl
  | addlRegReg
  | addlImmReg
  | imull
  | shrl
  | movlRegReg
  | movlDerefReg
  | movlRegDeref
  | movlImmReg
  | cmpl
  | je
  | jl
  | jle
  | jge
  | jbe
  | jmp
  | call
  | ret
  | pushl
  | popl
  | printr
  | readr
  deriving DecidableEq, Repr

/-- All mnemonics, in that order. -/
def Mnemonic.all : List Mnemonic :=
  [.subl, .addlRegReg, .addlImmReg, .imull, .shrl, .movlRegReg,
   .movlDerefReg, .movlRegDeref, .movlImmReg, .cmpl, .je, .jl,
   .jle, .jge, .jbe, .jmp, .call, .ret,
   .pushl, .popl, .printr, .readr]

end Sys2Proof
end

