-- ==== Sys2Proof/Machine/Params.lean ====
section
/-! DEFINITION. The parameters of 00_scope.md R3 whose values are the spec's decisions (92_eei_decisions.md), each a named
field that the definitions read and no definition repeats, so that another value can be put in its place. The bound on `N`,
which WellFormed reads, is `Config.maxWords`. -/

namespace Sys2Proof.Config

/-- `STACK_TOP`: the reset value of `x[6]` and the constant `ret` compares with (10_state.md R21; decision D2, log 9). -/
def stackTop : Word := 1024

/-- `IMM_EXT_DATA`: how `subl`, `addl_imm_reg` and the two memory forms widen the immediate (30_encoding.md R53; decision
D3, log 10). -/
def immExtData : ImmExt := .zext

/-- `DATA_BYTE_ORDER`: the byte order of 32-bit data accesses (20_memory.md R36; decision D10, log 15). -/
def dataByteOrder : ByteOrder := .littleEndian

/-- `PC_BITS`: the width of the program counter, whose arithmetic is modulo `2^PC_BITS` (10_state.md R13, R14; decision
D13, log 16). -/
abbrev pcBits : Nat := 32

/-- `OPCODE_MAP`: the opcode value of each mnemonic (30_encoding.md R55; decision D1, log 8). The values it leaves out are
the unrecognized ones (46_unrecognized.md R108). -/
def opcodeMap : Mnemonic → OpcodeField
  | .subl => 0
  | .addlRegReg => 1
  | .addlImmReg => 2
  | .imull => 3
  | .shrl => 4
  | .movlRegReg => 5
  | .movlDerefReg => 6
  | .movlRegDeref => 7
  | .movlImmReg => 8
  | .cmpl => 9
  | .je => 10
  | .jl => 11
  | .jle => 12
  | .jge => 13
  | .jbe => 14
  | .jmp => 15
  | .call => 16
  | .ret => 17
  | .pushl => 18
  | .popl => 19
  | .printr => 20
  | .readr => 21

end Sys2Proof.Config

namespace Sys2Proof

/-- A program counter: an unsigned byte address of `PC_BITS` bits (10_state.md R13). -/
abbrev Pc := BitVec Config.pcBits

end Sys2Proof
end

