-- ==== Sys2Proof/Decode.lean ====
section
/-! DEFINITION. The decoder (30_encoding.md R50 to R58): a 32-bit word to the four-field record, and the record to an
instruction through `OPCODE_MAP` (R55, decision D1, log 8). It is total: "Encoding errors: none possible". After it the
encoder of R60. -/

namespace Sys2Proof

/-- The decoder's output, the source's instruction record (30_encoding.md R50). -/
structure Record where
  opcode : OpcodeField
  r1 : RegField
  r2 : RegField
  imm : Imm16
  deriving DecidableEq, Repr

/-- `decode(w)` of 30_encoding.md R50; bit 16 belongs to no field (R51). -/
def decodeRecord (w : Word) : Record where
  opcode := w.extractLsb' 27 5
  r1 := w.extractLsb' 22 5
  r2 := w.extractLsb' 17 5
  imm := w.extractLsb' 0 16

/-- The mnemonic that `OPCODE_MAP` gives an opcode value, if any (30_encoding.md R55). -/
def mnemonicOf (v : OpcodeField) : Option Mnemonic := Mnemonic.all.find? fun m => Config.opcodeMap m == v

/-- The opcode values that `OPCODE_MAP` leaves unassigned, rising (30_encoding.md R56). -/
def unassignedOpcodes : List OpcodeField :=
  ((List.range 32).map (BitVec.ofNat 5)).filter fun v => (mnemonicOf v).isNone

/-- The instruction of the `k`-th unassigned opcode value, from 0. The last arm is the tenth (46_unrecognized.md R108). -/
def unrecognizedInstr (k : Nat) : Instr :=
  match k with
  | 0 => .unrecognized22
  | 1 => .unrecognized23
  | 2 => .unrecognized24
  | 3 => .unrecognized25
  | 4 => .unrecognized26
  | 5 => .unrecognized27
  | 6 => .unrecognized28
  | 7 => .unrecognized29
  | 8 => .unrecognized30
  | _ => .unrecognized31

/-- The operation an opcode value selects by `OPCODE_MAP`, with the fields it uses (30_encoding.md R55, R56). -/
def selectInstr (d : Record) : Instr :=
  match mnemonicOf d.opcode with
  | some .subl => .subl d.r1 d.imm
  | some .addlRegReg => .addlRegReg d.r1 d.r2
  | some .addlImmReg => .addlImmReg d.r1 d.imm
  | some .imull => .imull d.r1 d.r2
  | some .shrl => .shrl d.r1
  | some .movlRegReg => .movlRegReg d.r1 d.r2
  | some .movlDerefReg => .movlDerefReg d.r1 d.r2 d.imm
  | some .movlRegDeref => .movlRegDeref d.r1 d.r2 d.imm
  | some .movlImmReg => .movlImmReg d.r1 d.imm
  | some .cmpl => .cmpl d.r1 d.r2
  | some .je => .je d.imm
  | some .jl => .jl d.imm
  | some .jle => .jle d.imm
  | some .jge => .jge d.imm
  | some .jbe => .jbe d.imm
  | some .jmp => .jmp d.imm
  | some .call => .call d.imm
  | some .ret => .ret
  | some .pushl => .pushl d.r1
  | some .popl => .popl d.r1
  | some .printr => .printr d.r1
  | some .readr => .readr d.r1
  | none => unrecognizedInstr (unassignedOpcodes.idxOf d.opcode)

/-- The instruction a 32-bit word stands for (30_encoding.md R50, R55). -/
def decode (w : Word) : Instr := selectInstr (decodeRecord w)

/-- The `k`-th unassigned opcode value, from 0. -/
def unassignedOpcode (k : Nat) : OpcodeField := unassignedOpcodes.getD k 0

/-- The record of an instruction, unused fields zero (30_encoding.md R55, R59). -/
def Instr.toRecord : Instr → Record
  | .subl r1 imm => ⟨Config.opcodeMap .subl, r1, 0, imm⟩
  | .addlRegReg r1 r2 => ⟨Config.opcodeMap .addlRegReg, r1, r2, 0⟩
  | .addlImmReg r1 imm => ⟨Config.opcodeMap .addlImmReg, r1, 0, imm⟩
  | .imull r1 r2 => ⟨Config.opcodeMap .imull, r1, r2, 0⟩
  | .shrl r1 => ⟨Config.opcodeMap .shrl, r1, 0, 0⟩
  | .movlRegReg r1 r2 => ⟨Config.opcodeMap .movlRegReg, r1, r2, 0⟩
  | .movlDerefReg r1 r2 imm => ⟨Config.opcodeMap .movlDerefReg, r1, r2, imm⟩
  | .movlRegDeref r1 r2 imm => ⟨Config.opcodeMap .movlRegDeref, r1, r2, imm⟩
  | .movlImmReg r1 imm => ⟨Config.opcodeMap .movlImmReg, r1, 0, imm⟩
  | .cmpl r1 r2 => ⟨Config.opcodeMap .cmpl, r1, r2, 0⟩
  | .je imm => ⟨Config.opcodeMap .je, 0, 0, imm⟩
  | .jl imm => ⟨Config.opcodeMap .jl, 0, 0, imm⟩
  | .jle imm => ⟨Config.opcodeMap .jle, 0, 0, imm⟩
  | .jge imm => ⟨Config.opcodeMap .jge, 0, 0, imm⟩
  | .jbe imm => ⟨Config.opcodeMap .jbe, 0, 0, imm⟩
  | .jmp imm => ⟨Config.opcodeMap .jmp, 0, 0, imm⟩
  | .call imm => ⟨Config.opcodeMap .call, 0, 0, imm⟩
  | .ret => ⟨Config.opcodeMap .ret, 0, 0, 0⟩
  | .pushl r1 => ⟨Config.opcodeMap .pushl, r1, 0, 0⟩
  | .popl r1 => ⟨Config.opcodeMap .popl, r1, 0, 0⟩
  | .printr r1 => ⟨Config.opcodeMap .printr, r1, 0, 0⟩
  | .readr r1 => ⟨Config.opcodeMap .readr, r1, 0, 0⟩
  | .unrecognized22 => ⟨unassignedOpcode 0, 0, 0, 0⟩
  | .unrecognized23 => ⟨unassignedOpcode 1, 0, 0, 0⟩
  | .unrecognized24 => ⟨unassignedOpcode 2, 0, 0, 0⟩
  | .unrecognized25 => ⟨unassignedOpcode 3, 0, 0, 0⟩
  | .unrecognized26 => ⟨unassignedOpcode 4, 0, 0, 0⟩
  | .unrecognized27 => ⟨unassignedOpcode 5, 0, 0, 0⟩
  | .unrecognized28 => ⟨unassignedOpcode 6, 0, 0, 0⟩
  | .unrecognized29 => ⟨unassignedOpcode 7, 0, 0, 0⟩
  | .unrecognized30 => ⟨unassignedOpcode 8, 0, 0, 0⟩
  | .unrecognized31 => ⟨unassignedOpcode 9, 0, 0, 0⟩

/-- `(opcode << 27) | (r1 << 22) | (r2 << 17) | imm`, bit 16 zero (30_encoding.md R60). -/
def encodeRecord (d : Record) : Word :=
  (d.opcode.setWidth 32 <<< 27) ||| (d.r1.setWidth 32 <<< 22) ||| (d.r2.setWidth 32 <<< 17) ||| d.imm.setWidth 32

/-- The canonical word of an instruction (30_encoding.md R60). -/
def encode (i : Instr) : Word := encodeRecord i.toRecord

/-- The host's question: the instruction in the word whose low `nbits` bits are `w` and whose other bits are 0. Every
instruction is one 32-bit word (30_encoding.md R52), so more bits than that are no instruction. -/
def decodeTableWord (nbits w : Nat) : Option Instr :=
  if nbits ≤ 32 then some (decode (BitVec.ofNat 32 (w % 2 ^ nbits))) else none

end Sys2Proof
end

