-- ==== Sys2Proof/Machine/State.lean ====
section
/-! DEFINITION. The state of the machine as plain data (10_state.md), its reset value (R23), and the reasons a step can
give no next state. -/

namespace Sys2Proof.Machine

/-- Data memory as a list of (address, byte) cells; an unlisted address holds `Config.resetByte` (20_memory.md R32,
10_state.md R23). `Memory.wf` is its canonical form. -/
abbrev Memory := List Host.Cell

/-- The canonical form: addresses strictly rising and below `MEM_SIZE` (20_memory.md R39), and no cell that holds what an
unlisted address holds. -/
def Memory.wf : Memory → Bool
  | [] => true
  | c :: m =>
    decide (c.1 < Config.memSize) && decide (c.2 ≠ Config.resetByte) && m.all (fun d => decide (c.1 < d.1)) && Memory.wf m

/-- The four faults with what each records (60_exceptions.md R110). -/
inductive FaultCause where
  /-- `FetchFault`: a fetch at a `pc` that is misaligned or beyond the end (R111). -/
  | fetch (pc : Pc)
  /-- `RegisterIndexFault`: a used register field of 16 to 31 (R112). -/
  | registerIndex (field : RegField)
  /-- `MemoryAlignmentFault`: a data address that is not a multiple of 4 (R113). -/
  | memoryAlignment (addr : Word)
  /-- `MemoryBoundsFault`: an aligned data address above 1020 (R114). -/
  | memoryBounds (addr : Word)
  deriving DecidableEq, Repr

/-- The run status (10_state.md R17). -/
inductive Status where
  /-- Steps happen. -/
  | running
  /-- A `ret` found the stack empty: the normal exit. -/
  | haltRet
  /-- The pc reached the end of the instruction stream. -/
  | haltEnd
  /-- An execution-time fault. -/
  | fault (cause : FaultCause)
  deriving DecidableEq, Repr

/-- The whole state (10_state.md, head). -/
structure State where
  /-- The register file, indices 0 to 16 (R10): `x[6]` the stack pointer, `x[16]` the flags. -/
  x : Vector Word 17
  /-- The program counter (R13). -/
  pc : Pc
  /-- Data memory (20_memory.md R32). -/
  mem : Memory
  /-- The run status (R17). -/
  status : Status
  /-- The output channel, oldest value first (R19). -/
  out : List Word
  /-- How many input values have been consumed (R20). -/
  inpos : Nat
  /-- The instruction store, a parameter of the run (20_memory.md R31); `N` is its length (log 1). -/
  imem : List Word
  /-- The input values delivered so far, oldest first, a parameter of the run that only the host extends (R20, log 2). -/
  input : List Word
  deriving DecidableEq, Repr

/-- The state after reset (10_state.md R23, 70_reset_and_hazards.md R130). The run's parameters are the host's to supply
(R132) and are empty here (logs 1 and 2). -/
def State.reset : State where
  x := (Vector.replicate 17 0).set 6 Config.stackTop
  pc := 0
  mem := []
  status := .running
  out := []
  inpos := 0
  imem := []
  input := []

/-- Why the machine takes no step. -/
inductive Fault where
  /-- Raised by the sequencer alone, in a state whose status is terminal: "no step happens in them and nothing leaves
  them but reset" (10_state.md R17; 40_fetch_execute_cycle.md R70). Safe: the run is over (log 3). -/
  | runOver (status : Status)
  deriving DecidableEq, Repr

/-- Why the model gives a state no meaning. -/
inductive Refusal where
  /-- Raised by an arm of `exec` whose instruction has no meaning yet; no arm does. Safe. -/
  | notModelled (mnemonic : String)
  /-- Raised by the sequencer alone, when the instruction store holds more than `2^30 - 1` words, "not a valid
  configuration of the machine" (93_implementation_defined.md U22). Safe: nothing is claimed of such a run (log 5). -/
  | tooManyWords (count : Nat)
  deriving DecidableEq, Repr

end Sys2Proof.Machine
end

