-- ==== Sys2Proof/Machine/Flags.lean ====
section
/-! DEFINITION. The flags register's four bits, the flag computation of `cmpl` and the five branch conditions
(10_state.md R15; 43_compare_and_branch.md R90, R92 to R96). -/

namespace Sys2Proof.Machine

/-- The mask of CF, bit 0 (10_state.md R15). -/
def carryMask : Word := 0x001

/-- The mask of ZF, bit 6 (10_state.md R15). -/
def zeroMask : Word := 0x040

/-- The mask of SF, bit 7 (10_state.md R15). -/
def signMask : Word := 0x080

/-- The mask of OF, bit 11 (10_state.md R15). -/
def overflowMask : Word := 0x800

/-- CF of a flags word. -/
def carryFlag (flags : Word) : Bool := flags.getLsbD 0

/-- ZF of a flags word. -/
def zeroFlag (flags : Word) : Bool := flags.getLsbD 6

/-- SF of a flags word. -/
def signFlag (flags : Word) : Bool := flags.getLsbD 7

/-- OF of a flags word. -/
def overflowFlag (flags : Word) : Bool := flags.getLsbD 11

/-- `cmp = s32(b) - s32(a)`, exact (43_compare_and_branch.md R90; computed here alone, 40_fetch_execute_cycle.md R72, log
23). -/
def compareValue (a b : Word) : Int := b.toInt - a.toInt

/-- A mask when its flag is 1, else 0. -/
def maskIf (flag : Bool) (mask : Word) : Word := if flag then mask else 0

/-- The flags `cmpl` writes for `a = x[r1]`, `b = x[r2]`: the sum of the four mask values (43_compare_and_branch.md R90).
SF is bit 31 of the 64-bit pattern of `cmp` (90_conflicts.md C1). -/
def compareFlags (a b : Word) : Word :=
  maskIf (decide (a.toNat > b.toNat)) carryMask +
  maskIf (decide (compareValue a b = 0)) zeroMask +
  maskIf ((BitVec.ofInt 64 (compareValue a b)).getLsbD 31) signMask +
  maskIf (decide (compareValue a b < -2 ^ 31 ∨ compareValue a b > 2 ^ 31 - 1)) overflowMask

/-- `je`: ZF (R92). -/
def condEqual (flags : Word) : Bool := zeroFlag flags

/-- `jl`: OF xor SF (R93). -/
def condLess (flags : Word) : Bool := overflowFlag flags ^^ signFlag flags

/-- `jle`: (OF xor SF) or ZF (R94). -/
def condLessEqual (flags : Word) : Bool := (overflowFlag flags ^^ signFlag flags) || zeroFlag flags

/-- `jge`: not (OF xor SF) (R95). -/
def condGreaterEqual (flags : Word) : Bool := !(overflowFlag flags ^^ signFlag flags)

/-- `jbe`: ZF or CF (R96). -/
def condBelowEqual (flags : Word) : Bool := zeroFlag flags || carryFlag flags

end Sys2Proof.Machine
end

