-- ==== Sys2Proof/Machine/Operands.lean ====
section
/-! DEFINITION. The operand forms of the 22 instructions: the register-field check `Reg(f)`, the three widenings of the
immediate, the effective address, the branch target and the byte layout of a word. -/

namespace Sys2Proof.Machine

/-- `Reg(f)`: a used register field of 0 to 15 names that register, 16 to 31 raises RegisterIndexFault
(60_exceptions.md R112; decision D5, log 12). -/
def reg (f : RegField) : Except FaultCause (Fin 17) :=
  if h : f.toNat < Config.ngpr then .ok ⟨f.toNat, Nat.lt_of_lt_of_le h (by decide)⟩ else .error (.registerIndex f)

/-- `zext_32(i)` (30_encoding.md R53). -/
def zext32 (imm : Imm16) : Word := imm.setWidth 32

/-- `sext_32(i)` (30_encoding.md R53). -/
def sext32 (imm : Imm16) : Word := imm.signExtend 32

/-- `ext_data(i)`: as `IMM_EXT_DATA` says (30_encoding.md R53; decision D3, log 10). -/
def extData (imm : Imm16) : Word :=
  match Config.immExtData with
  | .zext => zext32 imm
  | .sext => sext32 imm

/-- The effective address of the two memory forms: base value plus offset, modulo `2^32` (20_memory.md R38). -/
def effectiveAddress (base : Word) (imm : Imm16) : Word := base + extData imm

/-- The default next pc (40_fetch_execute_cycle.md R73). -/
def followingPc (pc : Pc) : Pc := pc + 4

/-- The target of a taken branch, relative to the following instruction (43_compare_and_branch.md R91): the displacement is
sign-extended to the width of the pc, which at `PC_BITS = 32` is `sext_32`. -/
def branchTarget (pc : Pc) (imm : Imm16) : Pc := pc + 4 + imm.signExtend Config.pcBits

/-- An address of the instruction stream as a 32-bit pattern: the return address `call` stores, the `info` of FetchFault
(44_call_and_stack.md R100; 60_exceptions.md R110). At `PC_BITS = 32` it is the pc itself. -/
def wordOfPc (pc : Pc) : Word := pc.setWidth 32

/-- The program counter a 32-bit pattern gives, for the value `ret` pops (44_call_and_stack.md R101). At `PC_BITS = 32` it
is the pattern itself. -/
def pcOfWord (w : Word) : Pc := w.setWidth Config.pcBits

/-- The word whose bytes at rising addresses are `b0`, `b1`, `b2`, `b3` (20_memory.md R33, R36). -/
def wordOfBytes (order : Config.ByteOrder) (b0 b1 b2 b3 : Byte) : Word :=
  match order with
  | .littleEndian => b3 ++ b2 ++ b1 ++ b0
  | .bigEndian => b0 ++ b1 ++ b2 ++ b3

/-- The byte of `v` that goes to the `k`-th address of its slot (20_memory.md R34, R36). -/
def byteOfWord (order : Config.ByteOrder) (v : Word) (k : Nat) : Byte :=
  match order with
  | .littleEndian => v.extractLsb' (8 * k) 8
  | .bigEndian => v.extractLsb' (24 - 8 * k) 8

end Sys2Proof.Machine
end

