-- ==== Sys2Proof/Machine/Ops.lean ====
section
/-! DEFINITION. The named operations over registers, memory, channels and status that every meaning is written with, and
the one operation that raises a fault. -/

namespace Sys2Proof.Machine

/-- What a meaning or a step answers. -/
abbrev Result := Host.Outcome State Fault Refusal

/-! ### Registers, program counter, status -/

/-- `x[i]` (10_state.md R10). -/
def State.readX (s : State) (i : Fin 17) : Word := s.x.get i

/-- `x[i] <- v` (10_state.md R10). -/
def State.writeX (s : State) (i : Fin 17) (v : Word) : State := { s with x := s.x.set i.val v i.isLt }

/-- `sp`, an alias of `x[6]` (10_state.md R12). -/
def State.sp (s : State) : Word := s.readX Config.sp

/-- `flags`, an alias of `x[16]` (10_state.md R15). -/
def State.flags (s : State) : Word := s.readX Config.flags

/-- `pc <- t` (10_state.md R14). -/
def State.goto (s : State) (t : Pc) : State := { s with pc := t }

/-- `pc <- pc + 4`, the default (40_fetch_execute_cycle.md R73). -/
def State.advance (s : State) : State := s.goto (followingPc s.pc)

/-- `halt(k)`: a terminal status, nothing else (00_scope.md, section 5). -/
def State.halt (s : State) (k : Status) : State := { s with status := k }

/-! ### Faults (60_exceptions.md) -/

/-- The numeric code of a fault (60_exceptions.md R110). -/
def FaultCause.code : FaultCause → Nat
  | .fetch _ => 1
  | .registerIndex _ => 2
  | .memoryAlignment _ => 3
  | .memoryBounds _ => 4

/-- The `info` a fault records (60_exceptions.md R110). -/
def FaultCause.info : FaultCause → Word
  | .fetch pc => wordOfPc pc
  | .registerIndex f => f.setWidth 32
  | .memoryAlignment a => a
  | .memoryBounds a => a

/-- `raise F(info)`: `status <- FAULT(code, info)` and "nothing else happens" (60_exceptions.md R116; log 4). There is no
return from a fault (R117). -/
def State.raise (s : State) (c : FaultCause) : State := { s with status := .fault c }

/-- The end of every meaning: the finished state, or the state BEFORE the instruction with the fault raised, so that a
fault leaves everything else as it was (40_fetch_execute_cycle.md R74, 60_exceptions.md R116). -/
def commit (s : State) (r : Except FaultCause State) : Result :=
  match r with
  | .ok t => .next t
  | .error c => .next (s.raise c)

/-! ### Data memory (20_memory.md) -/

/-- The byte at an address; an unlisted one holds its reset value. -/
def Memory.readByte : Memory → Nat → Byte
  | [], _ => Config.resetByte
  | c :: m, a => if c.1 = a then c.2 else Memory.readByte m a

/-- The memory without a cell for an address. -/
def Memory.erase (m : Memory) (a : Nat) : Memory := m.filter (fun c => c.1 != a)

/-- A cell put in before the first higher address. -/
def Memory.insert (a : Nat) (v : Byte) : Memory → Memory
  | [] => [(a, v)]
  | c :: m => if a < c.1 then (a, v) :: c :: m else c :: Memory.insert a v m

/-- One byte written; writing what an unlisted address holds removes its cell. -/
def Memory.writeByte (m : Memory) (a : Nat) (v : Byte) : Memory :=
  if v = Config.resetByte then m.erase a else (m.erase a).insert a v

/-- The word at four rising addresses (20_memory.md R33, R36). -/
def Memory.readWord (m : Memory) (a : Nat) : Word :=
  wordOfBytes Config.dataByteOrder (m.readByte a) (m.readByte (a + 1)) (m.readByte (a + 2)) (m.readByte (a + 3))

/-- A word written to four rising addresses (20_memory.md R34, R36). -/
def Memory.writeWord (m : Memory) (a : Nat) (v : Word) : Memory :=
  (((m.writeByte a (byteOfWord Config.dataByteOrder v 0)).writeByte (a + 1) (byteOfWord Config.dataByteOrder v 1)).writeByte
    (a + 2) (byteOfWord Config.dataByteOrder v 2)).writeByte (a + 3) (byteOfWord Config.dataByteOrder v 3)

/-- The address check: alignment, then bounds (20_memory.md R35; decisions D6 and D7, log 13). -/
def checkAddress (a : Word) : Except FaultCause Unit :=
  if a.toNat % 4 ≠ 0 then .error (.memoryAlignment a)
  else if a.toNat > Config.memSize - 4 then .error (.memoryBounds a)
  else .ok ()

/-- `MemRead(a, 4)` (20_memory.md R33). -/
def State.memRead (s : State) (a : Word) : Except FaultCause Word := do
  checkAddress a
  pure (s.mem.readWord a.toNat)

/-- `MemWrite(a, 4, v)` (20_memory.md R34). -/
def State.memWrite (s : State) (a v : Word) : Except FaultCause State := do
  checkAddress a
  pure { s with mem := s.mem.writeWord a.toNat v }

/-! ### Channels (10_state.md R19, R20) -/

/-- `Out(v)` (10_state.md R19). -/
def State.emit (s : State) (v : Word) : State := { s with out := s.out ++ [v] }

/-- The value `In()` would yield, if the host has delivered it (10_state.md R20). -/
def State.nextInput (s : State) : Option Word := s.input[s.inpos]?

/-- The effect of `In()` on the channel: one value consumed (10_state.md R20). -/
def State.consumeInput (s : State) : State := { s with inpos := s.inpos + 1 }

end Sys2Proof.Machine
end

