-- ==== Sys2Proof/Machine/Arithmetic.lean ====
section
/-! DEFINITION. The arithmetic instructions (41_arithmetic.md). Results wrap modulo `2^32` and no flag is written (R79;
decision D4, log 11). -/

namespace Sys2Proof.Machine

/-- `subl $n, %rA` (R80). -/
def execSubl (r1 : RegField) (imm : Imm16) (s : State) : Result := commit s do
  let a ← reg r1
  pure (s.writeX a (s.readX a - extData imm)).advance

/-- `addl_reg_reg %rA, %rB` (R81). -/
def execAddlRegReg (r1 r2 : RegField) (s : State) : Result := commit s do
  let a ← reg r1
  let b ← reg r2
  pure (s.writeX b (s.readX a + s.readX b)).advance

/-- `addl_imm_reg $n, %rA` (R82). -/
def execAddlImmReg (r1 : RegField) (imm : Imm16) (s : State) : Result := commit s do
  let a ← reg r1
  pure (s.writeX a (s.readX a + extData imm)).advance

/-- `imull %rA, %rB`: the low 32 bits of the exact signed product (R83). -/
def execImull (r1 r2 : RegField) (s : State) : Result := commit s do
  let a ← reg r1
  let b ← reg r2
  pure (s.writeX b (BitVec.ofInt 32 ((s.readX b).toInt * (s.readX a).toInt))).advance

/-- `shrl %rA`: logical shift right by one (R84). -/
def execShrl (r1 : RegField) (s : State) : Result := commit s do
  let a ← reg r1
  pure (s.writeX a (s.readX a >>> 1)).advance

end Sys2Proof.Machine
end

