-- ==== Sys2Proof/Machine/Branch.lean ====
section
/-! DEFINITION. The comparison and the branches (43_compare_and_branch.md). -/

namespace Sys2Proof.Machine

/-- `cmpl %rA, %rB`: all 32 bits of the flags register are overwritten (R90). -/
def execCmpl (r1 r2 : RegField) (s : State) : Result := commit s do
  let a ← reg r1
  let b ← reg r2
  pure (s.writeX Config.flags (compareFlags (s.readX a) (s.readX b))).advance

/-- A branch that is taken when its condition holds, and else falls through (R91). It raises no fault of its own. -/
def branchIf (taken : Bool) (imm : Imm16) (s : State) : Result :=
  .next (if taken then s.goto (branchTarget s.pc imm) else s.advance)

/-- `je d` (R92). -/
def execJe (imm : Imm16) (s : State) : Result := branchIf (condEqual s.flags) imm s

/-- `jl d` (R93). -/
def execJl (imm : Imm16) (s : State) : Result := branchIf (condLess s.flags) imm s

/-- `jle d` (R94). -/
def execJle (imm : Imm16) (s : State) : Result := branchIf (condLessEqual s.flags) imm s

/-- `jge d` (R95). -/
def execJge (imm : Imm16) (s : State) : Result := branchIf (condGreaterEqual s.flags) imm s

/-- `jbe d` (R96). -/
def execJbe (imm : Imm16) (s : State) : Result := branchIf (condBelowEqual s.flags) imm s

/-- `jmp d` (R97). -/
def execJmp (imm : Imm16) (s : State) : Result := branchIf true imm s

end Sys2Proof.Machine
end

