-- ==== Sys2Proof/Machine/DataMovement.lean ====
section
/-! DEFINITION. The data movement instructions (42_data_movement.md). No flag is written. -/

namespace Sys2Proof.Machine

/-- `movl_reg_reg %rA, %rB` (R85). -/
def execMovlRegReg (r1 r2 : RegField) (s : State) : Result := commit s do
  let a ← reg r1
  let b ← reg r2
  pure (s.writeX b (s.readX a)).advance

/-- `movl_deref_reg n(%rA), %rB`: load (R86). -/
def execMovlDerefReg (r1 r2 : RegField) (imm : Imm16) (s : State) : Result := commit s do
  let a ← reg r1
  let b ← reg r2
  let v ← s.memRead (effectiveAddress (s.readX a) imm)
  pure (s.writeX b v).advance

/-- `movl_reg_deref %rA, n(%rB)`: store; the base is `r2` (R87). -/
def execMovlRegDeref (r1 r2 : RegField) (imm : Imm16) (s : State) : Result := commit s do
  let a ← reg r1
  let b ← reg r2
  let t ← s.memWrite (effectiveAddress (s.readX b) imm) (s.readX a)
  pure t.advance

/-- `movl_imm_reg $n, %rA`: always zero-extended (R88). -/
def execMovlImmReg (r1 : RegField) (imm : Imm16) (s : State) : Result := commit s do
  let a ← reg r1
  pure (s.writeX a (zext32 imm)).advance

end Sys2Proof.Machine
end

