-- ==== Sys2Proof/Machine/Io.lean ====
section
/-! DEFINITION. Input and output (45_io.md). -/

namespace Sys2Proof.Machine

/-- `printr %rA` (R105). -/
def execPrintr (r1 : RegField) (s : State) : Result := commit s do
  let a ← reg r1
  pure (s.emit (s.readX a)).advance

/-- `readr %rA`: the register check comes first; with no value available the machine holds, its state unchanged, until the
host delivers one (R106; 40_fetch_execute_cycle.md R74; log 2). -/
def execReadr (r1 : RegField) (s : State) : Result := commit s do
  let a ← reg r1
  match s.nextInput with
  | some v => pure (s.consumeInput.writeX a v).advance
  | none => pure s

end Sys2Proof.Machine
end

