-- ==== Sys2Proof/Machine/Stack.lean ====
section
/-! DEFINITION. Call, return and stack instructions (44_call_and_stack.md). A push decrements `sp` by 4 and stores at the
new `sp`; a pop loads at `sp` and then increments it. No flag is read or written. -/

namespace Sys2Proof.Machine

/-- `call d`: push the return address and branch (R100). -/
def execCall (imm : Imm16) (s : State) : Result := commit s do
  let nsp := s.sp - 4
  let t ← s.memWrite nsp (wordOfPc (followingPc s.pc))
  pure ((t.writeX Config.sp nsp).goto (branchTarget s.pc imm))

/-- `ret`: halt when `x[6] = STACK_TOP`, the pc unchanged, else pop the pc (R101; decision D16, log 19). -/
def execRet (s : State) : Result :=
  if s.sp = Config.stackTop then .next (s.halt .haltRet)
  else commit s do
    let target ← s.memRead s.sp
    pure ((s.writeX Config.sp (s.sp + 4)).goto (pcOfWord target))

/-- `pushl %rA`: the decrement comes before the read of `x[A]`, so `pushl %sp` stores the new pointer (R102; decision D17,
log 21). -/
def execPushl (r1 : RegField) (s : State) : Result := commit s do
  let a ← reg r1
  let nsp := s.sp - 4
  let v := if a = Config.sp then nsp else s.readX a
  let t ← s.memWrite nsp v
  pure (t.writeX Config.sp nsp).advance

/-- `popl %rA`: the increment comes after the load into `x[A]`, so `popl %sp` leaves the loaded value plus 4 (R103;
decision D17, log 21). -/
def execPopl (r1 : RegField) (s : State) : Result := commit s do
  let a ← reg r1
  let v ← s.memRead s.sp
  let t := s.writeX a v
  pure (t.writeX Config.sp (t.sp + 4)).advance

end Sys2Proof.Machine
end

