-- ==== Sys2Proof/Machine/Unrecognized.lean ====
section
/-! DEFINITION. The ten opcode values that have no mnemonic (46_unrecognized.md R108): "a documented no-op", no fault. -/

namespace Sys2Proof.Machine

/-- Nothing but the default next pc (R108). -/
def noOperation (s : State) : Result := .next s.advance

/-- Opcode value 22 (R108). -/
def execUnrecognized22 (s : State) : Result := noOperation s

/-- Opcode value 23 (R108). -/
def execUnrecognized23 (s : State) : Result := noOperation s

/-- Opcode value 24 (R108). -/
def execUnrecognized24 (s : State) : Result := noOperation s

/-- Opcode value 25 (R108). -/
def execUnrecognized25 (s : State) : Result := noOperation s

/-- Opcode value 26 (R108). -/
def execUnrecognized26 (s : State) : Result := noOperation s

/-- Opcode value 27 (R108). -/
def execUnrecognized27 (s : State) : Result := noOperation s

/-- Opcode value 28 (R108). -/
def execUnrecognized28 (s : State) : Result := noOperation s

/-- Opcode value 29 (R108). -/
def execUnrecognized29 (s : State) : Result := noOperation s

/-- Opcode value 30 (R108). -/
def execUnrecognized30 (s : State) : Result := noOperation s

/-- Opcode value 31 (R108). -/
def execUnrecognized31 (s : State) : Result := noOperation s

end Sys2Proof.Machine
end

