-- ==== Sys2Proof/Machine/Dispatch.lean ====
section
/-! DEFINITION. One arm per constructor of `Instr`: the operation an instruction performs (40_fetch_execute_cycle.md R70,
point 6, with the advance of point 7). It does not look at `status`; the sequencer does. -/

namespace Sys2Proof.Machine

def exec (i : Instr) (s : State) : Host.Outcome State Fault Refusal :=
  match i with
  | .subl r1 imm => Sys2Proof.Machine.execSubl r1 imm s
  | .addlRegReg r1 r2 => Sys2Proof.Machine.execAddlRegReg r1 r2 s
  | .addlImmReg r1 imm => Sys2Proof.Machine.execAddlImmReg r1 imm s
  | .imull r1 r2 => Sys2Proof.Machine.execImull r1 r2 s
  | .shrl r1 => Sys2Proof.Machine.execShrl r1 s
  | .movlRegReg r1 r2 => Sys2Proof.Machine.execMovlRegReg r1 r2 s
  | .movlDerefReg r1 r2 imm => Sys2Proof.Machine.execMovlDerefReg r1 r2 imm s
  | .movlRegDeref r1 r2 imm => Sys2Proof.Machine.execMovlRegDeref r1 r2 imm s
  | .movlImmReg r1 imm => Sys2Proof.Machine.execMovlImmReg r1 imm s
  | .cmpl r1 r2 => Sys2Proof.Machine.execCmpl r1 r2 s
  | .je imm => Sys2Proof.Machine.execJe imm s
  | .jl imm => Sys2Proof.Machine.execJl imm s
  | .jle imm => Sys2Proof.Machine.execJle imm s
  | .jge imm => Sys2Proof.Machine.execJge imm s
  | .jbe imm => Sys2Proof.Machine.execJbe imm s
  | .jmp imm => Sys2Proof.Machine.execJmp imm s
  | .call imm => Sys2Proof.Machine.execCall imm s
  | .ret => Sys2Proof.Machine.execRet s
  | .pushl r1 => Sys2Proof.Machine.execPushl r1 s
  | .popl r1 => Sys2Proof.Machine.execPopl r1 s
  | .printr r1 => Sys2Proof.Machine.execPrintr r1 s
  | .readr r1 => Sys2Proof.Machine.execReadr r1 s
  | .unrecognized22 => Sys2Proof.Machine.execUnrecognized22 s
  | .unrecognized23 => Sys2Proof.Machine.execUnrecognized23 s
  | .unrecognized24 => Sys2Proof.Machine.execUnrecognized24 s
  | .unrecognized25 => Sys2Proof.Machine.execUnrecognized25 s
  | .unrecognized26 => Sys2Proof.Machine.execUnrecognized26 s
  | .unrecognized27 => Sys2Proof.Machine.execUnrecognized27 s
  | .unrecognized28 => Sys2Proof.Machine.execUnrecognized28 s
  | .unrecognized29 => Sys2Proof.Machine.execUnrecognized29 s
  | .unrecognized30 => Sys2Proof.Machine.execUnrecognized30 s
  | .unrecognized31 => Sys2Proof.Machine.execUnrecognized31 s

end Sys2Proof.Machine
end

