-- ==== Sys2Proof/WellFormed.lean ====
section
/-! DEFINITION. Well-formedness of what the host hands to the core: an instruction that the notation of 30_encoding.md R59 can
write (its registers are `%r0` to `%r15`), and an instruction store of a legal length. Every 32-bit word decodes and is
executable (R58), so neither check limits the decoder; an ill-formed instruction is one that raises RegisterIndexFault. -/

namespace Sys2Proof

/-- The used register fields, in the order they are checked (30_encoding.md R55, 60_exceptions.md R115). -/
def Instr.usedRegisters : Instr → List RegField
  | .subl r1 _ => [r1]
  | .addlRegReg r1 r2 => [r1, r2]
  | .addlImmReg r1 _ => [r1]
  | .imull r1 r2 => [r1, r2]
  | .shrl r1 => [r1]
  | .movlRegReg r1 r2 => [r1, r2]
  | .movlDerefReg r1 r2 _ => [r1, r2]
  | .movlRegDeref r1 r2 _ => [r1, r2]
  | .movlImmReg r1 _ => [r1]
  | .cmpl r1 r2 => [r1, r2]
  | .je _ => []
  | .jl _ => []
  | .jle _ => []
  | .jge _ => []
  | .jbe _ => []
  | .jmp _ => []
  | .call _ => []
  | .ret => []
  | .pushl r1 => [r1]
  | .popl r1 => [r1]
  | .printr r1 => [r1]
  | .readr r1 => [r1]
  | .unrecognized22 => []
  | .unrecognized23 => []
  | .unrecognized24 => []
  | .unrecognized25 => []
  | .unrecognized26 => []
  | .unrecognized27 => []
  | .unrecognized28 => []
  | .unrecognized29 => []
  | .unrecognized30 => []
  | .unrecognized31 => []

/-- The field names a general register, 0 to 15 (10_state.md R11). -/
def RegField.addressable (f : RegField) : Bool := decide (f.toNat < Config.ngpr)

/-- Every used register field names a general register: the instruction can be written in the notation of R59. -/
def Instr.wellFormed (i : Instr) : Bool := i.usedRegisters.all RegField.addressable

/-- A legal instruction count, `N <= 2^30 - 1` (00_scope.md R3; otherwise "not a valid configuration of the machine",
93_implementation_defined.md U22). -/
def Program.wellFormed (imem : List Word) : Bool := decide (imem.length ≤ Config.maxWords)

end Sys2Proof
end

