-- ==== Sys2Proof/Machine/Sequencer.lean ====
section
/-! DEFINITION. The run loop (40_fetch_execute_cycle.md): the checks before a fetch, the fetch, and one whole step. -/

namespace Sys2Proof.Machine

/-- What the sequencer finds at the pc (40_fetch_execute_cycle.md R70, points 1 to 3). -/
inductive Fetched where
  /-- `pc = 4 * N`. -/
  | endOfStream
  /-- `pc` is not a multiple of 4 or is greater than `4 * N`. -/
  | badPc
  /-- `IMEM[pc / 4]`. -/
  | word (w : Word)
  deriving DecidableEq, Repr

/-- The sequencer checks and the fetch (40_fetch_execute_cycle.md R71; 20_memory.md R31). -/
def fetch (s : State) : Fetched :=
  if s.pc.toNat = 4 * s.imem.length then .endOfStream
  else if s.pc.toNat % 4 ≠ 0 ∨ s.pc.toNat > 4 * s.imem.length then .badPc
  else
    match s.imem[s.pc.toNat / 4]? with
    | some w => .word w
    | none => .badPc

/-- Fetch, decode, execute (40_fetch_execute_cycle.md R70). Decoding at each fetch is the same as decoding before the run
(20_memory.md R31; log 6). -/
def fetchAndExecute (s : State) : Result :=
  match fetch s with
  | .endOfStream => .next (s.halt .haltEnd)
  | .badPc => .next (s.raise (.fetch s.pc))
  | .word w => exec (decode w) s

/-- One step: defined only while the status is RUNNING (R70; log 3), for a legal instruction count
(93_implementation_defined.md U22; log 5). -/
def runLoop (s : State) : Result :=
  match s.status with
  | .running => if Program.wellFormed s.imem then fetchAndExecute s else .refused (.tooManyWords s.imem.length)
  | k => .fault (.runOver k)

/-- `w` as word number `k` of an instruction store, the words before it kept and missing ones zero (log 7). -/
def placeWord (imem : List Word) (k : Nat) (w : Word) : List Word :=
  if k < imem.length then imem.set k w else imem ++ List.replicate (k - imem.length) 0 ++ [w]

end Sys2Proof.Machine
end

