-- ==== Sys2Proof/Machine/Step.lean ====
section
/-! DEFINITION. One step of the machine, and the host's way to put an instruction where the next step fetches. -/

namespace Sys2Proof.Machine

/-- One step (40_fetch_execute_cycle.md R70): see `runLoop`. -/
def step (s : State) : Host.Outcome State Fault Refusal := runLoop s

/-- `s` with the word whose low `nbits` bits are `w` (the others 0) as `IMEM[pc / 4]`: it stands for the host's load of a
program (70_reset_and_hazards.md R132; log 1). -/
def State.withFetchWord (s : State) (nbits w : Nat) : State :=
  { s with imem := placeWord s.imem (s.pc.toNat / 4) (BitVec.ofNat 32 (w % 2 ^ nbits)) }

end Sys2Proof.Machine
end

