-- ==== Sys2Proof/Machine/HostSide.lean ====
section
/-! DEFINITION. The host's side of the core's boundary (70_reset_and_hazards.md R132, R133; 10_state.md R24; 45_io.md): how a
run starts, what the host may do between steps, what it may observe, and the text of the two channels. None of it is a step
of the machine. -/

namespace Sys2Proof.Machine

/-- The start of a run: the reset state with the host's instruction words, and the input delivered so far
(40_fetch_execute_cycle.md R75; 70_reset_and_hazards.md R130, R132). -/
def State.start (imem input : List Word) : State := { State.reset with imem := imem, input := input }

/-- The host delivers one more input value, "at any time" (70_reset_and_hazards.md R133; log 2). -/
def State.deliver (s : State) (v : Word) : State := { s with input := s.input ++ [v] }

/-- The process exit status: 0 on HALT_RET (10_state.md R17); the OPEN `EXIT_STATUS_END` on HALT_END (decision D16); not
the core's on a fault, and none while running (log 19). -/
def exitStatus : Status → Option Int
  | .running => none
  | .haltRet => some 0
  | .haltEnd => some Config.exitStatusEnd
  | .fault _ => none

/-- What the host may observe (10_state.md R24; decision D19, log 22). -/
inductive HostView where
  /-- While RUNNING: the output channel alone. -/
  | running (out : List Word)
  /-- Once terminal: status, output, registers, pc and memory. -/
  | ended (status : Status) (out : List Word) (x : Vector Word 17) (pc : Pc) (mem : Memory)
  deriving DecidableEq, Repr

/-- The host's view of a state (10_state.md R24). -/
def hostView (s : State) : HostView :=
  match s.status with
  | .running => .running s.out
  | k => .ended k s.out s.x s.pc s.mem

/-- The diagnostic context of a faulted state: the pc, and the instruction word when the pc is fetchable
(60_exceptions.md R116). -/
def diagnostic (s : State) : Option (FaultCause × Pc × Option Word) :=
  match s.status with
  | .fault c => some (c, s.pc, if s.pc.toNat % 4 = 0 then s.imem[s.pc.toNat / 4]? else none)
  | _ => none

/-- The decimal numeral of an integer, a leading `-` if negative (45_io.md R105; decision D14). -/
def decimalText (n : Int) : List Char := if n < 0 then '-' :: Nat.toDigits 10 n.natAbs else Nat.toDigits 10 n.natAbs

/-- The line for one emitted value: signed decimal, then unsigned lowercase hexadecimal in parentheses, then a line feed
(45_io.md R105; decision D14, log 17). -/
def renderLine (v : Word) : List Char :=
  decimalText v.toInt ++ [' ', '(', '0', 'x'] ++ Nat.toDigits 16 v.toNat ++ [')', '\n']

/-- The value of a run of decimal digits, most significant first. -/
def digitsValue (acc : Nat) : List Char → Option Nat
  | [] => some acc
  | c :: cs => if c.isDigit then digitsValue (10 * acc + (c.toNat - '0'.toNat)) cs else none

/-- A token as a decimal integer: an optional `-`, then one or more digits (45_io.md R106; log 18). -/
def parseDecimal : List Char → Option Int
  | [] => none
  | ['-'] => none
  | '-' :: cs => (digitsValue 0 cs).map fun n => -(n : Int)
  | cs => (digitsValue 0 cs).map fun n => (n : Int)

/-- The pattern the host delivers for a token, if any: an integer in `-2^31 .. 2^31 - 1` (45_io.md R106; decision D15). -/
def tokenValue (token : List Char) : Option Word :=
  match parseDecimal token with
  | some n => if -2 ^ 31 ≤ n ∧ n ≤ 2 ^ 31 - 1 then some (BitVec.ofInt 32 n) else none
  | none => none

/-- The whitespace-delimited tokens of a text; `current` is the token being read, last character first. -/
def tokensFrom (current : List Char) : List Char → List (List Char)
  | [] => if current.isEmpty then [] else [current.reverse]
  | c :: cs =>
    if c.isWhitespace then
      if current.isEmpty then tokensFrom [] cs else current.reverse :: tokensFrom [] cs
    else tokensFrom (c :: current) cs

/-- The values of the tokens up to the first that is no deliverable integer: from there the host "delivers nothing", so the
hold never lifts (45_io.md R106; decision D15). -/
def valuesBeforeBadToken : List (List Char) → List Word
  | [] => []
  | t :: ts =>
    match tokenValue t with
    | some v => v :: valuesBeforeBadToken ts
    | none => []

/-- The input stream a standard-input text gives (10_state.md R20; 45_io.md R106; log 18). -/
def inputValues (text : List Char) : List Word := valuesBeforeBadToken (tokensFrom [] text)

/-- The instruction word an image's four bytes give: the byte order is the OPEN `IMAGE_BYTE_ORDER` (20_memory.md R36;
decision D11, log 20). The loader itself is out of scope (00_scope.md, section 3). -/
def imageWord (b0 b1 b2 b3 : Byte) : Word := wordOfBytes Config.imageByteOrder b0 b1 b2 b3

end Sys2Proof.Machine
end

