-- ==== Sys2Proof/Safety.lean ====
section
/-! DEFINITION. The terms the claims are stated in: which register a field names, what each instruction may touch
(10_state.md R11, 20_memory.md R37), the fault a step must report (60_exceptions.md R115), the machine's invariant, and
what a run can reach. Written from the spec's tables, not from the meanings. -/

namespace Sys2Proof.Machine

/-- The field names general register `a` (10_state.md R11). -/
def Names (f : RegField) (a : Fin 17) : Prop := a.val = f.toNat ∧ f.toNat < 16

/-- The word with these fields, from bit 31 down (30_encoding.md R50, format table). -/
def wordOf (opcode : OpcodeField) (r1 r2 : RegField) (bit16 : BitVec 1) (imm : Imm16) : Word :=
  opcode ++ r1 ++ r2 ++ bit16 ++ imm

/-- The bits of a word its opcode value uses: the opcode, and the fields of the table of 30_encoding.md R55. -/
def usedBits (opcode : Nat) : Word :=
  match opcode with
  | 0 | 2 | 8 => 0xFFC0FFFF
  | 1 | 3 | 5 | 9 => 0xFFFE0000
  | 4 | 18 | 19 | 20 | 21 => 0xFFC00000
  | 6 | 7 => 0xFFFEFFFF
  | 10 | 11 | 12 | 13 | 14 | 15 | 16 => 0xF800FFFF
  | _ => 0xF8000000

/-! ### What an instruction touches -/

/-- The registers an instruction reads or writes implicitly (10_state.md R11, last column). -/
def implicitRegisters : Instr → List (Fin 17)
  | .subl _ _ => []
  | .addlRegReg _ _ => []
  | .addlImmReg _ _ => []
  | .imull _ _ => []
  | .shrl _ => []
  | .movlRegReg _ _ => []
  | .movlDerefReg _ _ _ => []
  | .movlRegDeref _ _ _ => []
  | .movlImmReg _ _ => []
  | .cmpl _ _ => [Config.flags]
  | .je _ => [Config.flags]
  | .jl _ => [Config.flags]
  | .jle _ => [Config.flags]
  | .jge _ => [Config.flags]
  | .jbe _ => [Config.flags]
  | .jmp _ => []
  | .call _ => [Config.sp]
  | .ret => [Config.sp]
  | .pushl _ => [Config.sp]
  | .popl _ => [Config.sp]
  | .printr _ => []
  | .readr _ => []
  | .unrecognized22 => []
  | .unrecognized23 => []
  | .unrecognized24 => []
  | .unrecognized25 => []
  | .unrecognized26 => []
  | .unrecognized27 => []
  | .unrecognized28 => []
  | .unrecognized29 => []
  | .unrecognized30 => []
  | .unrecognized31 => []

/-- Register `j` is read or written by the instruction, through a field or implicitly (10_state.md R11). -/
def Touches (i : Instr) (j : Fin 17) : Prop := j ∈ implicitRegisters i ∨ ∃ f ∈ i.usedRegisters, Names f j

/-- Register `j` is written by the instruction (the W entries of 10_state.md R11). -/
def Writes (i : Instr) (j : Fin 17) : Prop :=
  match i with
  | .subl r1 _ => Names r1 j
  | .addlRegReg _ r2 => Names r2 j
  | .addlImmReg r1 _ => Names r1 j
  | .imull _ r2 => Names r2 j
  | .shrl r1 => Names r1 j
  | .movlRegReg _ r2 => Names r2 j
  | .movlDerefReg _ r2 _ => Names r2 j
  | .movlRegDeref _ _ _ => False
  | .movlImmReg r1 _ => Names r1 j
  | .cmpl _ _ => j = Config.flags
  | .je _ => False
  | .jl _ => False
  | .jle _ => False
  | .jge _ => False
  | .jbe _ => False
  | .jmp _ => False
  | .call _ => j = Config.sp
  | .ret => j = Config.sp
  | .pushl _ => j = Config.sp
  | .popl r1 => j = Config.sp ∨ Names r1 j
  | .printr _ => False
  | .readr r1 => Names r1 j
  | .unrecognized22 => False
  | .unrecognized23 => False
  | .unrecognized24 => False
  | .unrecognized25 => False
  | .unrecognized26 => False
  | .unrecognized27 => False
  | .unrecognized28 => False
  | .unrecognized29 => False
  | .unrecognized30 => False
  | .unrecognized31 => False

/-- The value of the register a field names; 0 for a field that names none (such an instruction faults first). -/
def fieldValue (s : State) (f : RegField) : Word := if h : f.toNat < 17 then s.x.get ⟨f.toNat, h⟩ else 0

/-- The address an instruction stores to, if it stores (20_memory.md R37, R38; 44_call_and_stack.md R100, R102). -/
def storeAddress (i : Instr) (s : State) : Option Word :=
  match i with
  | .subl _ _ => none
  | .addlRegReg _ _ => none
  | .addlImmReg _ _ => none
  | .imull _ _ => none
  | .shrl _ => none
  | .movlRegReg _ _ => none
  | .movlDerefReg _ _ _ => none
  | .movlRegDeref _ r2 imm => some (effectiveAddress (fieldValue s r2) imm)
  | .movlImmReg _ _ => none
  | .cmpl _ _ => none
  | .je _ => none
  | .jl _ => none
  | .jle _ => none
  | .jge _ => none
  | .jbe _ => none
  | .jmp _ => none
  | .call _ => some (s.sp - 4)
  | .ret => none
  | .pushl _ => some (s.sp - 4)
  | .popl _ => none
  | .printr _ => none
  | .readr _ => none
  | .unrecognized22 => none
  | .unrecognized23 => none
  | .unrecognized24 => none
  | .unrecognized25 => none
  | .unrecognized26 => none
  | .unrecognized27 => none
  | .unrecognized28 => none
  | .unrecognized29 => none
  | .unrecognized30 => none
  | .unrecognized31 => none

/-- The address an instruction loads from, if it loads (20_memory.md R37, R38; 44_call_and_stack.md R101, R103). -/
def loadAddress (i : Instr) (s : State) : Option Word :=
  match i with
  | .subl _ _ => none
  | .addlRegReg _ _ => none
  | .addlImmReg _ _ => none
  | .imull _ _ => none
  | .shrl _ => none
  | .movlRegReg _ _ => none
  | .movlDerefReg r1 _ imm => some (effectiveAddress (fieldValue s r1) imm)
  | .movlRegDeref _ _ _ => none
  | .movlImmReg _ _ => none
  | .cmpl _ _ => none
  | .je _ => none
  | .jl _ => none
  | .jle _ => none
  | .jge _ => none
  | .jbe _ => none
  | .jmp _ => none
  | .call _ => none
  | .ret => if s.sp = Config.stackTop then none else some s.sp
  | .pushl _ => none
  | .popl _ => some s.sp
  | .printr _ => none
  | .readr _ => none
  | .unrecognized22 => none
  | .unrecognized23 => none
  | .unrecognized24 => none
  | .unrecognized25 => none
  | .unrecognized26 => none
  | .unrecognized27 => none
  | .unrecognized28 => none
  | .unrecognized29 => none
  | .unrecognized30 => none
  | .unrecognized31 => none

/-- The one data address of an instruction, if any (20_memory.md R37). -/
def dataAddress (i : Instr) (s : State) : Option Word := (storeAddress i s).or (loadAddress i s)

/-- The instruction is one that may redirect control (40_fetch_execute_cycle.md R73). -/
def redirects : Instr → Bool
  | .subl _ _ => false
  | .addlRegReg _ _ => false
  | .addlImmReg _ _ => false
  | .imull _ _ => false
  | .shrl _ => false
  | .movlRegReg _ _ => false
  | .movlDerefReg _ _ _ => false
  | .movlRegDeref _ _ _ => false
  | .movlImmReg _ _ => false
  | .cmpl _ _ => false
  | .je _ => true
  | .jl _ => true
  | .jle _ => true
  | .jge _ => true
  | .jbe _ => true
  | .jmp _ => true
  | .call _ => true
  | .ret => true
  | .pushl _ => false
  | .popl _ => false
  | .printr _ => false
  | .readr _ => false
  | .unrecognized22 => false
  | .unrecognized23 => false
  | .unrecognized24 => false
  | .unrecognized25 => false
  | .unrecognized26 => false
  | .unrecognized27 => false
  | .unrecognized28 => false
  | .unrecognized29 => false
  | .unrecognized30 => false
  | .unrecognized31 => false

/-! ### Words in memory -/

/-- The 32-bit pattern at address `a`, least significant byte first (20_memory.md R33). -/
def wordAt (m : Memory) (a : Nat) : Word := m.readByte (a + 3) ++ m.readByte (a + 2) ++ m.readByte (a + 1) ++ m.readByte a

/-- `m'` is `m` with the word `v` stored at address `a`: its four bytes there, every other byte as it was (20_memory.md
R34). -/
def StoresWord (m m' : Memory) (a : Nat) (v : Word) : Prop :=
  m'.readByte a = v.extractLsb' 0 8 ∧ m'.readByte (a + 1) = v.extractLsb' 8 8 ∧
  m'.readByte (a + 2) = v.extractLsb' 16 8 ∧ m'.readByte (a + 3) = v.extractLsb' 24 8 ∧
  ∀ b, b < a ∨ a + 4 ≤ b → m'.readByte b = m.readByte b

/-! ### Faults -/

/-- The first used register field that names no register (60_exceptions.md R112, R115). -/
def firstBadField (i : Instr) : Option RegField := i.usedRegisters.find? fun f => !f.addressable

/-- The fault a data address raises, if any: alignment before bounds (20_memory.md R35). -/
def addressFault (a : Word) : Option FaultCause :=
  if a.toNat % 4 ≠ 0 then some (.memoryAlignment a) else if 1020 < a.toNat then some (.memoryBounds a) else none

/-- The fault an instruction raises, if any: register fields, then its data address (60_exceptions.md R115, points 2 to 5). -/
def instrFault (i : Instr) (s : State) : Option FaultCause :=
  match firstBadField i with
  | some f => some (.registerIndex f)
  | none => (dataAddress i s).bind addressFault

/-- The fault a step reports, if any: the first in the order of 60_exceptions.md R115. -/
def stepFault (s : State) : Option FaultCause :=
  match fetch s with
  | .endOfStream => none
  | .badPc => some (.fetch s.pc)
  | .word w => instrFault (decode w) s

/-- `FAULT(code, info)` is the status (10_state.md R17). -/
def Status.isFault : Status → Bool
  | .fault _ => true
  | _ => false

/-! ### Invariant and runs -/

/-- The seven values `cmpl` can produce (10_state.md R16). -/
def compareResults : List Word := [0x000, 0x001, 0x040, 0x080, 0x081, 0x800, 0x881]

/-- A terminal status says truly why the run ended (10_state.md R17; 40_fetch_execute_cycle.md R75; 60_exceptions.md R110). -/
def StatusExplained (s : State) : Prop :=
  match s.status with
  | .running => True
  | .haltRet => s.sp = Config.stackTop ∧ ∃ w, fetch s = .word w ∧ decode w = .ret
  | .haltEnd => s.pc.toNat = 4 * s.imem.length
  | .fault c => stepFault s = some c

/-- The machine's invariant: memory in canonical form, the flags a value `cmpl` can produce, no more input consumed than
delivered, a legal instruction count, and a status that is explained by the state. -/
structure Inv (s : State) : Prop where
  memory_wf : Memory.wf s.mem = true
  flags_from_cmpl : s.flags ∈ compareResults
  consumed_le_delivered : s.inpos ≤ s.input.length
  count_legal : Program.wellFormed s.imem = true
  status_explained : StatusExplained s

/-- The states a run from `s₀` passes through: steps, with host deliveries between them at any time
(40_fetch_execute_cycle.md R75; 70_reset_and_hazards.md R133). -/
inductive Reaches (s₀ : State) : State → Prop
  | start : Reaches s₀ s₀
  | step {s t : State} : Reaches s₀ s → step s = .next t → Reaches s₀ t
  | deliver {s : State} (v : Word) : Reaches s₀ s → Reaches s₀ (s.deliver v)

/-- Instructions performed one after the other, as long as the status is RUNNING. -/
def execAll : List Instr → State → Result
  | [], s => .next s
  | i :: rest, s =>
    match exec i s with
    | .next t => if t.status = .running then execAll rest t else .next t
    | r => r

/-- A function on states applied to the next state, if there is one. -/
def mapNext (f : State → State) : Result → Result
  | .next t => .next (f t)
  | .fault r => .fault r
  | .refused r => .refused r

end Sys2Proof.Machine
end

