-- ==== Sys2Proof/Certificates/Slice0/Obligations.lean ====
section
/-! DEFINITION. The statements for the provers. A rule R<n> is cited with its file. `D<n>` is a decision of
92_eei_decisions.md: the spec's own choice where its source is silent, which the numbered rules state; a docstring names
the decisions a statement rests on. `Log <n>` is notes/assumptions/<n>.md: where one is named, that clause is the model's
choice. -/

open Sys2Proof Sys2Proof.Machine

/-! ### Encoding -/

/-- 30_encoding.md R50: the four fields of a word, the source's two decode examples, and the decoding of an array. -/
def Obligations.DecodeSplitsWordIntoFields : Prop :=
  (∀ w : Word,
    (decodeRecord w).opcode.toNat = w.toNat / 2 ^ 27 ∧
    (decodeRecord w).r1.toNat = w.toNat / 2 ^ 22 % 32 ∧
    (decodeRecord w).r2.toNat = w.toNat / 2 ^ 17 % 32 ∧
    (decodeRecord w).imm.toNat = w.toNat % 65536) ∧
  decodeRecord 0xFFFFFFFF = ⟨31, 31, 31, 65535⟩ ∧
  decodeRecord 0 = ⟨0, 0, 0, 0⟩ ∧
  ∀ ws : List Word, (ws.map decodeRecord).length = ws.length ∧
    ∀ k : Nat, (ws.map decodeRecord)[k]? = ws[k]?.map decodeRecord

/-- 30_encoding.md section 6 and 95_test_vectors.md: words written out from the encoding, one or more of each family. The
opcode numbers are D1. -/
def Obligations.WrittenWordsDecode : Prop :=
  decode 0x0001FFFF = .subl 0 65535 ∧
  decode 0x08840000 = .addlRegReg 2 2 ∧
  decode 0x31820004 = .movlDerefReg 6 1 4 ∧
  decode 0x38C60000 = .movlRegDeref 3 3 0 ∧
  decode 0x48020000 = .cmpl 0 1 ∧
  decode 0x5800FFF0 = .jl 65520 ∧
  decode 0x7800FFEC = .jmp 65516 ∧
  decode 0x8FFEFFFF = .ret ∧
  decode 0x98400000 = .popl 1 ∧
  decode 0xA8800000 = .readr 2 ∧
  decode 0xB7FFFFFF = .unrecognized22 ∧
  decode 0xFFFFFFFF = .unrecognized31

/-- 30_encoding.md R50, R55, R60: every instruction, with every operand at every value its field admits, is what its
canonical word decodes to. No hypothesis of well-formedness: register fields of 16 to 31 are included. -/
def Obligations.DecodeOfEncodeIsInstruction : Prop :=
  ∀ i : Instr, decode (encode i) = i

/-- 30_encoding.md R51, R55, R57, R60, the other direction: encoding what a word decodes to gives the word with its ignored
bits cleared, so no used bit is dropped and no ignored bit is read. -/
def Obligations.EncodeOfDecodeClearsIgnoredBits : Prop :=
  ∀ w : Word, encode (decode w) = w &&& usedBits (w.toNat / 2 ^ 27)

/-- 30_encoding.md R57: "Two words that differ only in ignored bits behave identically" (marked derived by the spec): they
are one instruction, so they have one effect on every state. -/
def Obligations.IgnoredBitsDoNotMatter : Prop :=
  ∀ w w' : Word, w &&& usedBits (w.toNat / 2 ^ 27) = w' &&& usedBits (w.toNat / 2 ^ 27) →
    decode w = decode w' ∧ ∀ s : State, exec (decode w) s = exec (decode w') s

/-! ### Arithmetic (41_arithmetic.md). Opcode numbers D1; wrap-around D4; RegisterIndexFault D5. -/

/-- 41_arithmetic.md R80. The subtrahend is zero-extended (D3). -/
def Obligations.SublSubtractsImmediate : Prop :=
  ∀ (r1 r2 : RegField) (bit16 : BitVec 1) (imm : Imm16) (s : State),
    decode (wordOf 0 r1 r2 bit16 imm) = .subl r1 imm ∧
    (∀ a, Names r1 a →
      exec (.subl r1 imm) s =
        .next { s with x := s.x.set a (BitVec.ofInt 32 ((s.x.get a).toNat - imm.toNat)), pc := s.pc + 4 }) ∧
    (16 ≤ r1.toNat → exec (.subl r1 imm) s = .next { s with status := .fault (.registerIndex r1) })

/-- 41_arithmetic.md R81. -/
def Obligations.AddlRegRegAddsRegisters : Prop :=
  ∀ (r1 r2 : RegField) (bit16 : BitVec 1) (imm : Imm16) (s : State),
    decode (wordOf 1 r1 r2 bit16 imm) = .addlRegReg r1 r2 ∧
    (∀ a b, Names r1 a → Names r2 b →
      exec (.addlRegReg r1 r2) s =
        .next { s with x := s.x.set b (BitVec.ofNat 32 ((s.x.get a).toNat + (s.x.get b).toNat)), pc := s.pc + 4 }) ∧
    (16 ≤ r1.toNat → exec (.addlRegReg r1 r2) s = .next { s with status := .fault (.registerIndex r1) }) ∧
    (r1.toNat < 16 → 16 ≤ r2.toNat →
      exec (.addlRegReg r1 r2) s = .next { s with status := .fault (.registerIndex r2) })

/-- 41_arithmetic.md R82. The addend is zero-extended (D3). -/
def Obligations.AddlImmRegAddsImmediate : Prop :=
  ∀ (r1 r2 : RegField) (bit16 : BitVec 1) (imm : Imm16) (s : State),
    decode (wordOf 2 r1 r2 bit16 imm) = .addlImmReg r1 imm ∧
    (∀ a, Names r1 a →
      exec (.addlImmReg r1 imm) s =
        .next { s with x := s.x.set a (BitVec.ofNat 32 ((s.x.get a).toNat + imm.toNat)), pc := s.pc + 4 }) ∧
    (16 ≤ r1.toNat → exec (.addlImmReg r1 imm) s = .next { s with status := .fault (.registerIndex r1) })

/-- 41_arithmetic.md R83, and R79's remark that the low 32 bits are the same for signed and unsigned operands. -/
def Obligations.ImullKeepsLowProduct : Prop :=
  ∀ (r1 r2 : RegField) (bit16 : BitVec 1) (imm : Imm16) (s : State),
    decode (wordOf 3 r1 r2 bit16 imm) = .imull r1 r2 ∧
    (∀ a b, Names r1 a → Names r2 b →
      exec (.imull r1 r2) s =
        .next { s with x := s.x.set b (BitVec.ofInt 32 ((s.x.get b).toInt * (s.x.get a).toInt)), pc := s.pc + 4 } ∧
      exec (.imull r1 r2) s =
        .next { s with x := s.x.set b (BitVec.ofNat 32 ((s.x.get b).toNat * (s.x.get a).toNat)), pc := s.pc + 4 }) ∧
    (16 ≤ r1.toNat → exec (.imull r1 r2) s = .next { s with status := .fault (.registerIndex r1) }) ∧
    (r1.toNat < 16 → 16 ≤ r2.toNat → exec (.imull r1 r2) s = .next { s with status := .fault (.registerIndex r2) })

/-- 41_arithmetic.md R84. -/
def Obligations.ShrlHalvesUnsigned : Prop :=
  ∀ (r1 r2 : RegField) (bit16 : BitVec 1) (imm : Imm16) (s : State),
    decode (wordOf 4 r1 r2 bit16 imm) = .shrl r1 ∧
    (∀ a, Names r1 a →
      exec (.shrl r1) s = .next { s with x := s.x.set a (BitVec.ofNat 32 ((s.x.get a).toNat / 2)), pc := s.pc + 4 }) ∧
    (16 ≤ r1.toNat → exec (.shrl r1) s = .next { s with status := .fault (.registerIndex r1) })

/-! ### Data movement (42_data_movement.md). Opcode numbers D1; faults D5, D6, D7. -/

/-- 42_data_movement.md R85. -/
def Obligations.MovlRegRegCopies : Prop :=
  ∀ (r1 r2 : RegField) (bit16 : BitVec 1) (imm : Imm16) (s : State),
    decode (wordOf 5 r1 r2 bit16 imm) = .movlRegReg r1 r2 ∧
    (∀ a b, Names r1 a → Names r2 b →
      exec (.movlRegReg r1 r2) s = .next { s with x := s.x.set b (s.x.get a), pc := s.pc + 4 }) ∧
    (16 ≤ r1.toNat → exec (.movlRegReg r1 r2) s = .next { s with status := .fault (.registerIndex r1) }) ∧
    (r1.toNat < 16 → 16 ≤ r2.toNat →
      exec (.movlRegReg r1 r2) s = .next { s with status := .fault (.registerIndex r2) })

/-- 42_data_movement.md R86: the loaded word, and the four faults in their order. The offset is zero-extended (D3), the sum
wraps (D4). -/
def Obligations.MovlDerefRegLoadsWord : Prop :=
  ∀ (r1 r2 : RegField) (bit16 : BitVec 1) (imm : Imm16) (s : State),
    decode (wordOf 6 r1 r2 bit16 imm) = .movlDerefReg r1 r2 imm ∧
    (∀ a b addr, Names r1 a → Names r2 b → addr = ((s.x.get a).toNat + imm.toNat) % 2 ^ 32 →
      (addr % 4 = 0 → addr ≤ 1020 →
        exec (.movlDerefReg r1 r2 imm) s = .next { s with x := s.x.set b (wordAt s.mem addr), pc := s.pc + 4 }) ∧
      (addr % 4 ≠ 0 →
        exec (.movlDerefReg r1 r2 imm) s =
          .next { s with status := .fault (.memoryAlignment (BitVec.ofNat 32 addr)) }) ∧
      (addr % 4 = 0 → 1020 < addr →
        exec (.movlDerefReg r1 r2 imm) s =
          .next { s with status := .fault (.memoryBounds (BitVec.ofNat 32 addr)) })) ∧
    (16 ≤ r1.toNat → exec (.movlDerefReg r1 r2 imm) s = .next { s with status := .fault (.registerIndex r1) }) ∧
    (r1.toNat < 16 → 16 ≤ r2.toNat →
      exec (.movlDerefReg r1 r2 imm) s = .next { s with status := .fault (.registerIndex r2) })

/-- 42_data_movement.md R87: the bytes stored at base `x[r2]` plus offset, no register written, and the four faults in their
order. The offset is zero-extended (D3), the sum wraps (D4), bytes are little-endian (D10). -/
def Obligations.MovlRegDerefStoresWord : Prop :=
  ∀ (r1 r2 : RegField) (bit16 : BitVec 1) (imm : Imm16) (s : State),
    decode (wordOf 7 r1 r2 bit16 imm) = .movlRegDeref r1 r2 imm ∧
    (∀ a b addr, Names r1 a → Names r2 b → addr = ((s.x.get b).toNat + imm.toNat) % 2 ^ 32 →
      (addr % 4 = 0 → addr ≤ 1020 →
        ∃ m, exec (.movlRegDeref r1 r2 imm) s = .next { s with mem := m, pc := s.pc + 4 } ∧
          StoresWord s.mem m addr (s.x.get a)) ∧
      (addr % 4 ≠ 0 →
        exec (.movlRegDeref r1 r2 imm) s =
          .next { s with status := .fault (.memoryAlignment (BitVec.ofNat 32 addr)) }) ∧
      (addr % 4 = 0 → 1020 < addr →
        exec (.movlRegDeref r1 r2 imm) s =
          .next { s with status := .fault (.memoryBounds (BitVec.ofNat 32 addr)) })) ∧
    (16 ≤ r1.toNat → exec (.movlRegDeref r1 r2 imm) s = .next { s with status := .fault (.registerIndex r1) }) ∧
    (r1.toNat < 16 → 16 ≤ r2.toNat →
      exec (.movlRegDeref r1 r2 imm) s = .next { s with status := .fault (.registerIndex r2) })

/-- 42_data_movement.md R88. -/
def Obligations.MovlImmRegLoadsConstant : Prop :=
  ∀ (r1 r2 : RegField) (bit16 : BitVec 1) (imm : Imm16) (s : State),
    decode (wordOf 8 r1 r2 bit16 imm) = .movlImmReg r1 imm ∧
    (∀ a, Names r1 a →
      exec (.movlImmReg r1 imm) s =
        .next { s with x := s.x.set a (BitVec.ofNat 32 imm.toNat), pc := s.pc + 4 }) ∧
    (16 ≤ r1.toNat → exec (.movlImmReg r1 imm) s = .next { s with status := .fault (.registerIndex r1) })

/-! ### Comparison and branches (43_compare_and_branch.md). Opcode numbers D1; pc arithmetic D13. -/

/-- 43_compare_and_branch.md R90: the flags word as the sum of the four masks, the two forms of SF, the fault clauses (D5).
Neither operand register is written, nor any bit of the flags kept. -/
def Obligations.CmplSetsFlags : Prop :=
  ∀ (r1 r2 : RegField) (bit16 : BitVec 1) (imm : Imm16) (s : State),
    decode (wordOf 9 r1 r2 bit16 imm) = .cmpl r1 r2 ∧
    (∀ a b (cmp : Int) (cf zf sf of : Bool), Names r1 a → Names r2 b →
      cmp = (s.x.get b).toInt - (s.x.get a).toInt →
      cf = decide ((s.x.get a).toNat > (s.x.get b).toNat) →
      zf = decide (cmp = 0) →
      sf = (BitVec.ofInt 64 cmp).getLsbD 31 →
      of = decide (cmp < -2 ^ 31 ∨ cmp > 2 ^ 31 - 1) →
      exec (.cmpl r1 r2) s =
        .next { s with
          x := s.x.set 16 (BitVec.ofNat 32 (cf.toNat * 0x001 + zf.toNat * 0x040 + sf.toNat * 0x080 + of.toNat * 0x800)),
          pc := s.pc + 4 } ∧
      sf = (s.x.get b - s.x.get a).msb) ∧
    (16 ≤ r1.toNat → exec (.cmpl r1 r2) s = .next { s with status := .fault (.registerIndex r1) }) ∧
    (r1.toNat < 16 → 16 ≤ r2.toNat → exec (.cmpl r1 r2) s = .next { s with status := .fault (.registerIndex r2) })

/-- 43_compare_and_branch.md R92 to R96: the five conditions, for every value of the flags register, and the target
relative to the following instruction. -/
def Obligations.ConditionalBranchesTestFlags : Prop :=
  ∀ (r1 r2 : RegField) (bit16 : BitVec 1) (imm : Imm16) (s : State) (target : Word) (cf zf sf of : Bool),
    target = BitVec.ofInt 32 (s.pc.toNat + 4 + imm.toInt) →
    cf = (s.x.get 16).getLsbD 0 → zf = (s.x.get 16).getLsbD 6 →
    sf = (s.x.get 16).getLsbD 7 → of = (s.x.get 16).getLsbD 11 →
    decode (wordOf 10 r1 r2 bit16 imm) = .je imm ∧
    decode (wordOf 11 r1 r2 bit16 imm) = .jl imm ∧
    decode (wordOf 12 r1 r2 bit16 imm) = .jle imm ∧
    decode (wordOf 13 r1 r2 bit16 imm) = .jge imm ∧
    decode (wordOf 14 r1 r2 bit16 imm) = .jbe imm ∧
    exec (.je imm) s = .next { s with pc := if zf = true then target else s.pc + 4 } ∧
    exec (.jl imm) s = .next { s with pc := if of ≠ sf then target else s.pc + 4 } ∧
    exec (.jle imm) s = .next { s with pc := if of ≠ sf ∨ zf = true then target else s.pc + 4 } ∧
    exec (.jge imm) s = .next { s with pc := if of = sf then target else s.pc + 4 } ∧
    exec (.jbe imm) s = .next { s with pc := if zf = true ∨ cf = true then target else s.pc + 4 }

/-- 43_compare_and_branch.md R97. -/
def Obligations.JmpAlwaysBranches : Prop :=
  ∀ (r1 r2 : RegField) (bit16 : BitVec 1) (imm : Imm16) (s : State),
    decode (wordOf 15 r1 r2 bit16 imm) = .jmp imm ∧
    exec (.jmp imm) s = .next { s with pc := BitVec.ofInt 32 (s.pc.toNat + 4 + imm.toInt) }

/-! ### Call, return and stack (44_call_and_stack.md). Opcode numbers D1; faults D5, D6, D7, D9. -/

/-- 44_call_and_stack.md R100: return address stored at the decremented stack pointer, then the branch; or the address
fault with nothing done. -/
def Obligations.CallPushesReturnAddress : Prop :=
  ∀ (r1 r2 : RegField) (bit16 : BitVec 1) (imm : Imm16) (s : State) (nsp : Word), nsp = s.x.get 6 - 4 →
    decode (wordOf 16 r1 r2 bit16 imm) = .call imm ∧
    (nsp.toNat % 4 = 0 → nsp.toNat ≤ 1020 →
      ∃ m, exec (.call imm) s =
          .next { s with x := s.x.set 6 nsp, mem := m, pc := BitVec.ofInt 32 (s.pc.toNat + 4 + imm.toInt) } ∧
        StoresWord s.mem m nsp.toNat (s.pc + 4)) ∧
    (nsp.toNat % 4 ≠ 0 → exec (.call imm) s = .next { s with status := .fault (.memoryAlignment nsp) }) ∧
    (nsp.toNat % 4 = 0 → 1020 < nsp.toNat → exec (.call imm) s = .next { s with status := .fault (.memoryBounds nsp) })

/-- 44_call_and_stack.md R101: the exact check against STACK_TOP (D2), the halt with the pc kept (D16), exit status 0 and no
later step, else the pop. -/
def Obligations.RetHaltsOrPops : Prop :=
  ∀ (r1 r2 : RegField) (bit16 : BitVec 1) (imm : Imm16) (s : State) (sp : Word), sp = s.x.get 6 →
    decode (wordOf 17 r1 r2 bit16 imm) = .ret ∧
    (sp = Config.stackTop →
      exec .ret s = .next { s with status := .haltRet } ∧ exitStatus .haltRet = some 0 ∧
      ∀ u, step { s with status := .haltRet } ≠ .next u) ∧
    (sp ≠ Config.stackTop → sp.toNat % 4 = 0 → sp.toNat ≤ 1020 →
      exec .ret s = .next { s with x := s.x.set 6 (sp + 4), pc := wordAt s.mem sp.toNat }) ∧
    (sp ≠ Config.stackTop → sp.toNat % 4 ≠ 0 → exec .ret s = .next { s with status := .fault (.memoryAlignment sp) }) ∧
    (sp ≠ Config.stackTop → sp.toNat % 4 = 0 → 1020 < sp.toNat →
      exec .ret s = .next { s with status := .fault (.memoryBounds sp) })

/-- 44_call_and_stack.md R102: `pushl %sp` stores the decremented pointer (D17). -/
def Obligations.PushlStoresBelowStackPointer : Prop :=
  ∀ (r1 r2 : RegField) (bit16 : BitVec 1) (imm : Imm16) (s : State) (nsp : Word), nsp = s.x.get 6 - 4 →
    decode (wordOf 18 r1 r2 bit16 imm) = .pushl r1 ∧
    (∀ a, Names r1 a →
      (nsp.toNat % 4 = 0 → nsp.toNat ≤ 1020 →
        ∃ m, exec (.pushl r1) s = .next { s with x := s.x.set 6 nsp, mem := m, pc := s.pc + 4 } ∧
          StoresWord s.mem m nsp.toNat (if a = 6 then nsp else s.x.get a)) ∧
      (nsp.toNat % 4 ≠ 0 → exec (.pushl r1) s = .next { s with status := .fault (.memoryAlignment nsp) }) ∧
      (nsp.toNat % 4 = 0 → 1020 < nsp.toNat →
        exec (.pushl r1) s = .next { s with status := .fault (.memoryBounds nsp) })) ∧
    (16 ≤ r1.toNat → exec (.pushl r1) s = .next { s with status := .fault (.registerIndex r1) })

/-- 44_call_and_stack.md R103: `popl %sp` leaves the loaded value plus 4 (D17). -/
def Obligations.PoplLoadsAtStackPointer : Prop :=
  ∀ (r1 r2 : RegField) (bit16 : BitVec 1) (imm : Imm16) (s : State) (sp : Word), sp = s.x.get 6 →
    decode (wordOf 19 r1 r2 bit16 imm) = .popl r1 ∧
    (∀ a, Names r1 a →
      (sp.toNat % 4 = 0 → sp.toNat ≤ 1020 →
        exec (.popl r1) s =
          .next { s with
            x := if a = 6 then s.x.set 6 (wordAt s.mem sp.toNat + 4)
              else (s.x.set a (wordAt s.mem sp.toNat)).set 6 (sp + 4),
            pc := s.pc + 4 }) ∧
      (sp.toNat % 4 ≠ 0 → exec (.popl r1) s = .next { s with status := .fault (.memoryAlignment sp) }) ∧
      (sp.toNat % 4 = 0 → 1020 < sp.toNat → exec (.popl r1) s = .next { s with status := .fault (.memoryBounds sp) })) ∧
    (16 ≤ r1.toNat → exec (.popl r1) s = .next { s with status := .fault (.registerIndex r1) })

/-! ### Input, output and unrecognized opcodes (45_io.md, 46_unrecognized.md). Opcode numbers D1. -/

/-- 45_io.md R105, the machine's part: the value appended to the output channel. -/
def Obligations.PrintrAppendsRegister : Prop :=
  ∀ (r1 r2 : RegField) (bit16 : BitVec 1) (imm : Imm16) (s : State),
    decode (wordOf 20 r1 r2 bit16 imm) = .printr r1 ∧
    (∀ a, Names r1 a → exec (.printr r1) s = .next { s with out := s.out ++ [s.x.get a], pc := s.pc + 4 }) ∧
    (16 ≤ r1.toNat → exec (.printr r1) s = .next { s with status := .fault (.registerIndex r1) })

/-- 45_io.md R106, the machine's part: one value consumed, or a hold with no state change, or the fault before any input.
That a held step is a next state equal to the old one is the model's form of the hold (log 2). -/
def Obligations.ReadrConsumesOrHolds : Prop :=
  ∀ (r1 r2 : RegField) (bit16 : BitVec 1) (imm : Imm16) (s : State),
    decode (wordOf 21 r1 r2 bit16 imm) = .readr r1 ∧
    (∀ a v, Names r1 a → s.input[s.inpos]? = some v →
      exec (.readr r1) s = .next { s with x := s.x.set a v, inpos := s.inpos + 1, pc := s.pc + 4 }) ∧
    (r1.toNat < 16 → s.input.length ≤ s.inpos → exec (.readr r1) s = .next s) ∧
    (16 ≤ r1.toNat → exec (.readr r1) s = .next { s with status := .fault (.registerIndex r1) })

/-- 46_unrecognized.md R108: every word from 0xB0000000 up, and each of the ten opcode values, changes nothing but the pc. -/
def Obligations.UnrecognizedOpcodesAreNoOps : Prop :=
  ∀ s : State,
    (∀ w : Word, 0xB0000000 ≤ w.toNat → exec (decode w) s = .next { s with pc := s.pc + 4 }) ∧
    (∀ i ∈ [Instr.unrecognized22, .unrecognized23, .unrecognized24, .unrecognized25, .unrecognized26, .unrecognized27,
        .unrecognized28, .unrecognized29, .unrecognized30, .unrecognized31],
      exec i s = .next { s with pc := s.pc + 4 })

/-! ### Memory (20_memory.md) -/

/-- 20_memory.md R33, R34, R35: the address check, the read and the write (D6, D7, D10). -/
def Obligations.MemoryAccessChecksAndBytes : Prop :=
  ∀ (s : State) (a v : Word),
    (a.toNat % 4 ≠ 0 →
      s.memRead a = .error (.memoryAlignment a) ∧ s.memWrite a v = .error (.memoryAlignment a)) ∧
    (a.toNat % 4 = 0 → 1020 < a.toNat →
      s.memRead a = .error (.memoryBounds a) ∧ s.memWrite a v = .error (.memoryBounds a)) ∧
    (a.toNat % 4 = 0 → a.toNat ≤ 1020 →
      s.memRead a = .ok (wordAt s.mem a.toNat) ∧
      ∃ m, s.memWrite a v = .ok { s with mem := m } ∧ StoresWord s.mem m a.toNat v)

/-- 20_memory.md section 4: "a read returns the value of the latest write to the same slot"; two slots never overlap. -/
def Obligations.ReadReturnsLatestWrite : Prop :=
  ∀ (s t : State) (a b v : Word), s.memWrite a v = .ok t → t.memRead b = if b = a then .ok v else s.memRead b

/-! ### Reset and the invariant -/

/-- 70_reset_and_hazards.md R130: the state reset leaves, alone or with the instruction words and the input the host supplies.
STACK_TOP is D2. -/
def Obligations.ResetLeavesSpecifiedState : Prop :=
  ∀ s : State, (s = State.reset ∨ ∃ imem input : List Word, s = State.start imem input) →
    (∀ j : Fin 17, s.x.get j = if j = 6 then Config.stackTop else 0) ∧
    (∀ a : Nat, a < 1024 → s.mem.readByte a = 0) ∧
    s.pc = 0 ∧ s.status = .running ∧ s.out = [] ∧ s.inpos = 0

/-- The invariant holds after reset, for every legal instruction store and any input. -/
def Obligations.ResetMeetsInvariant : Prop :=
  Inv State.reset ∧ ∀ imem input : List Word, Program.wellFormed imem = true → Inv (State.start imem input)

/-- Every step keeps the invariant: memory stays in canonical form inside 1024 bytes, the flags stay a value `cmpl` can
produce, no input is consumed before it is delivered, and a terminal status is explained by the state. -/
def Obligations.StepKeepsInvariant : Prop :=
  ∀ s t : State, Inv s → step s = .next t → Inv t

/-- 10_state.md section 3: in every state a run from reset passes through, for any legal instruction store, any input and
any host deliveries, the flags are one of the seven values and every other bit of `x[16]` is 0 (both marked derived by the
spec); and the memory has its canonical form. -/
def Obligations.RunsKeepFlagsReachable : Prop :=
  ∀ (imem input : List Word) (t : State), Program.wellFormed imem = true → Reaches (State.start imem input) t →
    t.flags ∈ compareResults ∧ t.flags &&& ~~~0x8C1 = 0 ∧ Memory.wf t.mem = true

/-! ### The step and the sequencer (40_fetch_execute_cycle.md) -/

/-- 40_fetch_execute_cycle.md section 1: while running, with a legal count, a step at a fetchable pc is `exec` of the
instruction its word decodes to, and nothing around it. -/
def Obligations.StepRunsDecodedInstruction : Prop :=
  ∀ (s : State) (k : Nat) (w : Word) (i : Instr),
    s.status = .running → Program.wellFormed s.imem = true → s.pc.toNat = 4 * k → s.imem[k]? = some w → decode w = i →
    step s = exec i s

/-- 40_fetch_execute_cycle.md R71: the end of the stream, and FetchFault (D8) at the step that fetches. -/
def Obligations.SequencerEndsOrFaultsAtFetch : Prop :=
  ∀ s : State, s.status = .running → Program.wellFormed s.imem = true →
    (s.pc.toNat = 4 * s.imem.length → step s = .next { s with status := .haltEnd }) ∧
    (s.pc.toNat % 4 ≠ 0 ∨ 4 * s.imem.length < s.pc.toNat → step s = .next { s with status := .fault (.fetch s.pc) })

/-- The model's form of "no step happens" in a terminal status (10_state.md section 4; log 3). -/
def Obligations.TerminalStatusTakesNoStep : Prop :=
  ∀ s : State, s.status ≠ .running → step s = .fault (.runOver s.status)

/-- The model's form of "not a valid configuration of the machine" (93_implementation_defined.md U22; log 5). -/
def Obligations.TooManyWordsRefused : Prop :=
  ∀ s : State, s.status = .running → 2 ^ 30 - 1 < s.imem.length → step s = .refused (.tooManyWords s.imem.length)

/-- 30_encoding.md section 4: "Every 32-bit word is therefore an executable instruction": no instruction stops the model,
and a running state with a legal count always has a next state. Two forms are the model's: for a `readr` without input the
spec says that the step does not happen, and here the next state is the old one (log 2); a fault of the spec is a next state
with the status FAULT (log 4). -/
def Obligations.EveryInstructionHasNextState : Prop :=
  (∀ (i : Instr) (s : State), ∃ t, exec i s = .next t) ∧
  ∀ s : State, s.status = .running → Program.wellFormed s.imem = true → ∃ t, step s = .next t

/-- 20_memory.md sections 1 and 4, 10_state.md section 5: along any run from any state, with host deliveries at any time,
the instruction store never changes, the input is only extended, the output only grows, and no input is given back. -/
def Obligations.RunsKeepInstructionStore : Prop :=
  ∀ s t : State, Reaches s t → t.imem = s.imem ∧ s.input <+: t.input ∧ s.out <+: t.out ∧ s.inpos ≤ t.inpos

/-- 40_fetch_execute_cycle.md section 2: of the input stream, a step depends on the next value alone, and only when the
instruction at the pc is `readr`. -/
def Obligations.StepReadsOnlyNextInput : Prop :=
  ∀ (s : State) (input : List Word),
    (∀ w r1, fetch s = .word w → decode w = .readr r1 → input[s.inpos]? = s.input[s.inpos]?) →
    step { s with input := input } = mapNext (fun t => { t with input := input }) (step s)

/-! ### Faults (60_exceptions.md) -/

/-- 60_exceptions.md section 2: the fault a step reports is the first in the order fetch, `r1`, `r2`, alignment, bounds (D9);
and when none of the conditions holds the step reports none. A `readr` without input falls under the second clause: the spec
says that its step does not happen, and the next state there, equal to the old one, is the model's form (log 2). A fault as a
next state is log 4. -/
def Obligations.StepReportsFirstFault : Prop :=
  ∀ s : State, s.status = .running → Program.wellFormed s.imem = true →
    (∀ c, stepFault s = some c → step s = .next { s with status := .fault c }) ∧
    (stepFault s = none → ∃ t, step s = .next t ∧ t.status.isFault = false)

/-- 60_exceptions.md R116: a step that ends in a fault changes the status and nothing else, and no step follows it. -/
def Obligations.FaultChangesOnlyStatus : Prop :=
  ∀ (s t : State) (c : FaultCause), step s = .next t → t.status = .fault c →
    t = { s with status := .fault c } ∧ ∀ u, step t ≠ .next u

/-- 60_exceptions.md section 1, the table: codes (D9) and recorded information. -/
def Obligations.FaultCodesAndInfo : Prop :=
  ∀ (p a : Word) (f : RegField),
    (FaultCause.fetch p).code = 1 ∧ (FaultCause.fetch p).info = p ∧
    (FaultCause.registerIndex f).code = 2 ∧ (FaultCause.registerIndex f).info.toNat = f.toNat ∧
    (FaultCause.memoryAlignment a).code = 3 ∧ (FaultCause.memoryAlignment a).info = a ∧
    (FaultCause.memoryBounds a).code = 4 ∧ (FaultCause.memoryBounds a).info = a

/-- 30_encoding.md section 4: RegisterIndexFault is raised by exactly the instructions with a used register field of 16 to
31, in every state. -/
def Obligations.RegisterFaultIffIllFormed : Prop :=
  ∀ (i : Instr) (s : State), s.status = .running →
    (i.wellFormed = false ↔ ∃ f, 16 ≤ f.toNat ∧ exec i s = .next { s with status := .fault (.registerIndex f) })

/-! ### Frames: what instructions leave alone -/

/-- 10_state.md section 1, the W entries of the table: a register no W entry names keeps its value. The flags register is
index 16, so only `cmpl` writes it. -/
def Obligations.UnwrittenRegistersKeepValue : Prop :=
  ∀ (i : Instr) (s t : State) (j : Fin 17), exec i s = .next t → ¬ Writes i j → t.x.get j = s.x.get j

/-- 10_state.md sections 1 and 3, the R and W entries together: a register the instruction does not touch influences
nothing. In particular only the five conditional branches depend on the flags. -/
def Obligations.UntouchedRegistersDoNotMatter : Prop :=
  ∀ (i : Instr) (s : State) (j : Fin 17) (v : Word), ¬ Touches i j →
    exec i { s with x := s.x.set j v } = mapNext (fun t => { t with x := t.x.set j v }) (exec i s)

/-- 20_memory.md sections 2 and 3: every byte outside the four at the instruction's store address keeps its value, and every
byte does for an instruction that stores nothing. -/
def Obligations.UnstoredBytesKeepValue : Prop :=
  ∀ (i : Instr) (s t : State) (b : Nat), exec i s = .next t →
    (∀ a, storeAddress i s = some a → b < a.toNat ∨ a.toNat + 4 ≤ b) → t.mem.readByte b = s.mem.readByte b

/-- 20_memory.md section 1, 10_state.md section 4: only `printr` writes the output channel, only `readr` reads the input
channel, nothing writes the instruction store, and the status changes only by a halting `ret` or the instruction's fault. -/
def Obligations.ChannelsAndStatusFrame : Prop :=
  ∀ (i : Instr) (s t : State), exec i s = .next t →
    t.imem = s.imem ∧ t.input = s.input ∧
    (t.out = s.out ∨ ∃ r1 a, i = .printr r1 ∧ Names r1 a ∧ t.out = s.out ++ [s.x.get a]) ∧
    (t.inpos = s.inpos ∨ ∃ r1, i = .readr r1 ∧ s.inpos < s.input.length ∧ t.inpos = s.inpos + 1) ∧
    (t.status = s.status ∨ (i = .ret ∧ s.x.get 6 = Config.stackTop ∧ t.status = .haltRet) ∨
      ∃ c, instrFault i s = some c ∧ t.status = .fault c)

/-- 40_fetch_execute_cycle.md section 1: an instruction that is no branch, `jmp`, `call` or `ret`, and neither faults nor
holds, leaves `pc + 4`. -/
def Obligations.DefaultNextPcIsFollowing : Prop :=
  ∀ (i : Instr) (s t : State), exec i s = .next t → redirects i = false → instrFault i s = none →
    (∀ r1, i = .readr r1 → s.inpos < s.input.length) → t.pc = s.pc + 4

/-- 70_reset_and_hazards.md section 3: flags "persist unchanged until the next `cmpl`, across any number of other
instructions, calls and returns". A `readr` without input leaves the state as it was (the model's form of the hold, log 2). -/
def Obligations.FlagsPersistUntilNextCmpl : Prop :=
  ∀ (is : List Instr) (s t : State), (∀ i ∈ is, ∀ r1 r2, i ≠ .cmpl r1 r2) → execAll is s = .next t →
    t.x.get 16 = s.x.get 16

/-! ### Instructions together -/

/-- 43_compare_and_branch.md R98: after `cmpl %rA, %rB`, in any later state whose flags are still the ones it wrote, each
branch is taken exactly when the operands are in its order. -/
def Obligations.BranchAfterCmplFollowsOrder : Prop :=
  ∀ (r1 r2 : RegField) (a b : Fin 17) (imm : Imm16) (s t u : State) (va vb target : Word),
    Names r1 a → Names r2 b → va = s.x.get a → vb = s.x.get b →
    exec (.cmpl r1 r2) s = .next t → u.x.get 16 = t.x.get 16 →
    target = BitVec.ofInt 32 (u.pc.toNat + 4 + imm.toInt) →
    exec (.je imm) u = .next { u with pc := if va = vb then target else u.pc + 4 } ∧
    exec (.jl imm) u = .next { u with pc := if vb.toInt < va.toInt then target else u.pc + 4 } ∧
    exec (.jle imm) u = .next { u with pc := if vb.toInt ≤ va.toInt then target else u.pc + 4 } ∧
    exec (.jge imm) u = .next { u with pc := if vb.toInt ≥ va.toInt then target else u.pc + 4 } ∧
    exec (.jbe imm) u = .next { u with pc := if vb.toNat ≤ va.toNat then target else u.pc + 4 }

/-- 10_state.md section 3: the values `cmpl` can produce are exactly the seven listed (marked derived by the spec). -/
def Obligations.CmplProducesExactlySevenValues : Prop :=
  ∀ f : Word, f ∈ compareResults ↔ ∃ a b : Word, compareFlags a b = f

/-- 44_call_and_stack.md section "popl", the source's test property: `n` pushes and then `n` pops of one register, any
register, restore the whole register file, for any `n` that fits below the stack pointer. -/
def Obligations.PushesThenPopsRestore : Prop :=
  ∀ (r : RegField) (n : Nat) (s : State), r.toNat < 16 → s.status = .running →
    s.sp.toNat % 4 = 0 → s.sp.toNat ≤ 1024 → 4 * n ≤ s.sp.toNat →
    ∃ t, execAll (List.replicate n (.pushl r) ++ List.replicate n (.popl r)) s = .next t ∧
      t.x = s.x ∧ t.status = .running ∧ t.pc = s.pc + BitVec.ofNat 32 (8 * n) ∧
      ∀ b, b + 4 * n < s.sp.toNat ∨ s.sp.toNat ≤ b → t.mem.readByte b = s.mem.readByte b

/-- 44_call_and_stack.md section "ret": "`call` then `ret` returns control to the instruction immediately after the
`call`", wherever the `ret` stands, with the register file as it was. -/
def Obligations.CallThenRetReturns : Prop :=
  ∀ (imm : Imm16) (s : State) (retPc : Word), s.sp.toNat % 4 = 0 → 4 ≤ s.sp.toNat → s.sp.toNat ≤ 1024 →
    ∃ t u, exec (.call imm) s = .next t ∧ exec .ret { t with pc := retPc } = .next u ∧
      u.pc = s.pc + 4 ∧ u.x = s.x ∧ u.status = s.status

/-- 42_data_movement.md section "movl_imm_reg": "`movl_imm_reg` followed by `printr` on the same register reproduces the
immediate exactly". -/
def Obligations.LoadConstantThenPrint : Prop :=
  ∀ (r : RegField) (imm : Imm16) (s : State), r.toNat < 16 → s.status = .running →
    ∃ t, execAll [.movlImmReg r imm, .printr r] s = .next t ∧ t.out = s.out ++ [BitVec.ofNat 32 imm.toNat]

/-- 70_reset_and_hazards.md section 3: "a word stored is read back by the very next load". The two memory forms name their
base in opposite fields. -/
def Obligations.StoreThenLoadCopies : Prop :=
  ∀ (rd rb rc : RegField) (d b c : Fin 17) (imm : Imm16) (s : State) (addr : Nat),
    Names rd d → Names rb b → Names rc c → s.status = .running →
    addr = ((s.x.get b).toNat + imm.toNat) % 2 ^ 32 → addr % 4 = 0 → addr ≤ 1020 →
    ∃ t, execAll [.movlRegDeref rd rb imm, .movlDerefReg rb rc imm] s = .next t ∧
      t.x = s.x.set c (s.x.get d) ∧ t.pc = s.pc + 8

/-- 10_state.md section 5, 45_io.md section "readr": a held `readr` completes with the value the host delivers next. The
form of the hold and of the delivery is log 2. -/
def Obligations.HeldReadrCompletesOnDelivery : Prop :=
  ∀ (r1 : RegField) (a : Fin 17) (v : Word) (s : State), Names r1 a → s.inpos = s.input.length →
    exec (.readr r1) s = .next s ∧
    exec (.readr r1) (s.deliver v) =
      .next { s with input := s.input ++ [v], x := s.x.set a v, inpos := s.inpos + 1, pc := s.pc + 4 }

/-! ### The host's side -/

/-- 10_state.md section 6: while running the host sees the output, all of it and nothing else; once terminal also status,
registers, memory and pc (D19); HALT_RET gives exit status 0. The data type of the view is the model's (log 22). -/
def Obligations.HostSeesOutputThenEndState : Prop :=
  (∀ s : State, s.status = .running → hostView s = .running s.out) ∧
  (∀ s s' : State, s.status = .running → s'.status = .running → (hostView s = hostView s' ↔ s.out = s'.out)) ∧
  (∀ s : State, s.status ≠ .running → hostView s = .ended s.status s.out s.x s.pc s.mem) ∧
  exitStatus .haltRet = some 0

/-- 45_io.md sections "printr" and "readr": the host's reading of a text of printed decimals, one white space after each, is
the sequence of patterns printed. The grammar of tokens is log 18. -/
def Obligations.PrintedDecimalsReadBack : Prop :=
  ∀ vs : List Word, inputValues (vs.flatMap fun v => decimalText v.toInt ++ [' ']) = vs

/-- 45_io.md section "printr", corner cases (D14): the lines for 0, 0xFFFFFFFF, 0x80000000, 0x0000FFFF and 1024. -/
def Obligations.PrintrLineExamples : Prop :=
  renderLine 0 = "0 (0x0)\n".toList ∧
  renderLine 0xFFFFFFFF = "-1 (0xffffffff)\n".toList ∧
  renderLine 0x80000000 = "-2147483648 (0x80000000)\n".toList ∧
  renderLine 0x0000FFFF = "65535 (0xffff)\n".toList ∧
  renderLine 1024 = "1024 (0x400)\n".toList

/-! ### The opcode map -/

/-- 30_encoding.md section 3, 46_unrecognized.md: the decoder reads `OPCODE_MAP` (its values are D1): a mnemonic's value
selects that mnemonic, and an opcode value the map leaves unassigned is a no-op. -/
def Obligations.OpcodeMapSelectsOrNoOp : Prop :=
  (∀ m : Mnemonic, mnemonicOf (Config.opcodeMap m) = some m) ∧
  ∀ (w : Word) (s : State), mnemonicOf (decodeRecord w).opcode = none → exec (decode w) s = .next { s with pc := s.pc + 4 }
end

