-- ==== Sys2Proof/Laws/Decode.lean ====
section
/-! SUPPORT. The record and the word: the fields put together by the encoder are the fields the decoder takes apart. And the
default opcode map written out. -/

namespace Sys2Proof

/-- The encoder's word is its fields side by side, bit 16 zero (30_encoding.md R50, R60). -/
theorem encodeRecord_eq_append (d : Record) :
    encodeRecord d = d.opcode ++ d.r1 ++ d.r2 ++ (0 : BitVec 1) ++ d.imm := by
  unfold encodeRecord
  apply BitVec.eq_of_getLsbD_eq
  intro i hi
  simp only [BitVec.getLsbD_or, BitVec.getLsbD_shiftLeft, BitVec.getLsbD_setWidth, BitVec.getLsbD_append]
  interval_cases i <;> simp

/-- Decoding a word of given fields gives the fields, whatever bit 16 is (30_encoding.md R50, R51). -/
theorem decodeRecord_append (op : OpcodeField) (r1 r2 : RegField) (b : BitVec 1) (imm : Imm16) :
    decodeRecord (op ++ r1 ++ r2 ++ b ++ imm) = ⟨op, r1, r2, imm⟩ := by
  simp only [decodeRecord, Record.mk.injEq]
  refine ⟨?_, ?_, ?_, ?_⟩
  all_goals
    apply BitVec.eq_of_getLsbD_eq
    intro i hi
    simp only [BitVec.getLsbD_extractLsb', BitVec.getLsbD_append]
    interval_cases i <;> simp

/-- The decoder takes apart what the encoder put together. -/
theorem decodeRecord_encodeRecord (d : Record) : decodeRecord (encodeRecord d) = d := by
  rw [encodeRecord_eq_append, decodeRecord_append]

/-! ### The default `OPCODE_MAP` (decision D1) -/

/-- The default map gives no value to two mnemonics. -/
theorem opcodeMap_injective (m n : Mnemonic) (h : Config.opcodeMap m = Config.opcodeMap n) : m = n := by
  revert h; cases m <;> cases n <;> decide

/-- The values the default map leaves unassigned. -/
theorem unassignedOpcodes_eq : unassignedOpcodes = [22, 23, 24, 25, 26, 27, 28, 29, 30, 31] := by decide

/-- The operation by opcode value under the default map, as the table of 30_encoding.md R55 lists it. -/
theorem selectInstr_eq_table (d : Record) :
    selectInstr d =
      match d.opcode.toNat with
      | 0 => .subl d.r1 d.imm
      | 1 => .addlRegReg d.r1 d.r2
      | 2 => .addlImmReg d.r1 d.imm
      | 3 => .imull d.r1 d.r2
      | 4 => .shrl d.r1
      | 5 => .movlRegReg d.r1 d.r2
      | 6 => .movlDerefReg d.r1 d.r2 d.imm
      | 7 => .movlRegDeref d.r1 d.r2 d.imm
      | 8 => .movlImmReg d.r1 d.imm
      | 9 => .cmpl d.r1 d.r2
      | 10 => .je d.imm
      | 11 => .jl d.imm
      | 12 => .jle d.imm
      | 13 => .jge d.imm
      | 14 => .jbe d.imm
      | 15 => .jmp d.imm
      | 16 => .call d.imm
      | 17 => .ret
      | 18 => .pushl d.r1
      | 19 => .popl d.r1
      | 20 => .printr d.r1
      | 21 => .readr d.r1
      | 22 => .unrecognized22
      | 23 => .unrecognized23
      | 24 => .unrecognized24
      | 25 => .unrecognized25
      | 26 => .unrecognized26
      | 27 => .unrecognized27
      | 28 => .unrecognized28
      | 29 => .unrecognized29
      | 30 => .unrecognized30
      | _ => .unrecognized31 := by
  obtain ⟨⟨n⟩, r1, r2, imm⟩ := d
  fin_cases n <;> rfl

end Sys2Proof
end

