-- ==== Sys2Proof/Laws/Memory.lean ====
section
/-! SUPPORT. Data memory: a read after a write, for bytes and for words, and the canonical form every write keeps. The read
laws hold of every list of cells; only the form lemmas ask for `Memory.wf`. -/

namespace Sys2Proof.Machine

/-! ### Bytes -/

theorem Memory.readByte_erase_same (m : Memory) (a : Nat) : (m.erase a).readByte a = Config.resetByte := by
  induction m with
  | nil => rfl
  | cons c m ih =>
    by_cases h : c.1 = a
    · simpa [Memory.erase, h] using ih
    · simpa [Memory.erase, h, Memory.readByte] using ih

theorem Memory.readByte_erase_of_ne (m : Memory) {a b : Nat} (hab : b ≠ a) : (m.erase a).readByte b = m.readByte b := by
  induction m with
  | nil => rfl
  | cons c m ih =>
    by_cases h : c.1 = a
    · have hb : a ≠ b := fun e => hab e.symm
      simpa [Memory.erase, h, Memory.readByte, hb] using ih
    · by_cases hc : c.1 = b
      · simp [Memory.erase, Memory.readByte, hc, hab]
      · simpa [Memory.erase, h, Memory.readByte, hc] using ih

theorem Memory.readByte_insert_same (m : Memory) (a : Nat) (v : Byte) (h : ∀ c ∈ m, c.1 ≠ a) :
    (Memory.insert a v m).readByte a = v := by
  induction m with
  | nil => simp [Memory.insert, Memory.readByte]
  | cons c m ih =>
    by_cases hc : a < c.1
    · simp [Memory.insert, hc, Memory.readByte]
    · simp [Memory.insert, hc, Memory.readByte, h c (by simp), ih fun d hd => h d (by simp [hd])]

theorem Memory.readByte_insert_of_ne (m : Memory) {a b : Nat} (v : Byte) (hab : b ≠ a) :
    (Memory.insert a v m).readByte b = m.readByte b := by
  have hba : a ≠ b := fun e => hab e.symm
  induction m with
  | nil => simp [Memory.insert, Memory.readByte, hba]
  | cons c m ih =>
    by_cases hc : a < c.1
    · simp [Memory.insert, hc, Memory.readByte, hba]
    · simp [Memory.insert, hc, Memory.readByte, ih]

theorem Memory.ne_of_mem_erase {m : Memory} {a : Nat} {c : Host.Cell} (h : c ∈ m.erase a) : c.1 ≠ a := by
  simp only [Memory.erase, List.mem_filter, bne_iff_ne] at h
  exact h.2

/-- A byte written is read back. -/
@[simp] theorem Memory.readByte_writeByte_same (m : Memory) (a : Nat) (v : Byte) : (m.writeByte a v).readByte a = v := by
  unfold Memory.writeByte
  split
  · next h => rw [Memory.readByte_erase_same, h]
  · exact Memory.readByte_insert_same _ _ _ fun c hc => Memory.ne_of_mem_erase hc

/-- A byte written leaves every other byte as it was. -/
theorem Memory.readByte_writeByte_of_ne (m : Memory) {a b : Nat} (v : Byte) (h : b ≠ a) :
    (m.writeByte a v).readByte b = m.readByte b := by
  unfold Memory.writeByte
  split
  · exact Memory.readByte_erase_of_ne m h
  · rw [Memory.readByte_insert_of_ne _ _ h, Memory.readByte_erase_of_ne m h]

theorem Memory.readByte_writeByte (m : Memory) (a b : Nat) (v : Byte) :
    (m.writeByte a v).readByte b = if b = a then v else m.readByte b := by
  split
  · next h => subst h; simp
  · next h => exact m.readByte_writeByte_of_ne v h

/-! ### Words (20_memory.md R33, R34) -/

/-- What each byte is after a word has been written. -/
theorem Memory.readByte_writeWord (m : Memory) (a b : Nat) (v : Word) :
    (m.writeWord a v).readByte b =
      if b = a then byteOfWord Config.dataByteOrder v 0
      else if b = a + 1 then byteOfWord Config.dataByteOrder v 1
      else if b = a + 2 then byteOfWord Config.dataByteOrder v 2
      else if b = a + 3 then byteOfWord Config.dataByteOrder v 3
      else m.readByte b := by
  simp only [Memory.writeWord, Memory.readByte_writeByte]
  split_ifs <;> first | rfl | omega

/-- The bytes outside the written slot are as they were. -/
theorem Memory.readByte_writeWord_outside (m : Memory) {a b : Nat} (v : Word) (h : b < a ∨ a + 4 ≤ b) :
    (m.writeWord a v).readByte b = m.readByte b := by
  rw [Memory.readByte_writeWord]
  split_ifs <;> first | rfl | omega

/-- The four bytes of a word put together are the word. -/
theorem wordOfBytes_byteOfWord (o : Config.ByteOrder) (v : Word) :
    wordOfBytes o (byteOfWord o v 0) (byteOfWord o v 1) (byteOfWord o v 2) (byteOfWord o v 3) = v := by
  apply BitVec.eq_of_getLsbD_eq
  intro i hi
  cases o
  all_goals
    simp only [wordOfBytes, byteOfWord, BitVec.getLsbD_append, BitVec.getLsbD_extractLsb']
    interval_cases i <;> simp

/-- A word written is read back whole. -/
@[simp] theorem Memory.readWord_writeWord_same (m : Memory) (a : Nat) (v : Word) : (m.writeWord a v).readWord a = v := by
  simp [Memory.readWord, Memory.readByte_writeWord, wordOfBytes_byteOfWord]

/-- A word written leaves every word that does not overlap it as it was. -/
theorem Memory.readWord_writeWord_of_disjoint (m : Memory) {a b : Nat} (v : Word) (h : b + 4 ≤ a ∨ a + 4 ≤ b) :
    (m.writeWord a v).readWord b = m.readWord b := by
  simp only [Memory.readWord]
  rw [Memory.readByte_writeWord_outside _ _ (by omega), Memory.readByte_writeWord_outside _ _ (by omega),
    Memory.readByte_writeWord_outside _ _ (by omega), Memory.readByte_writeWord_outside _ _ (by omega)]

/-! ### The canonical form -/

theorem Memory.wf_cons {c : Host.Cell} {m : Memory} :
    Memory.wf (c :: m) = true ↔
      c.1 < Config.memSize ∧ c.2 ≠ Config.resetByte ∧ (∀ d ∈ m, c.1 < d.1) ∧ Memory.wf m = true := by
  simp [Memory.wf, and_assoc]

theorem Memory.wf_erase {m : Memory} (h : Memory.wf m = true) (a : Nat) : Memory.wf (m.erase a) = true := by
  induction m with
  | nil => exact h
  | cons c m ih =>
    obtain ⟨h1, h2, h3, h4⟩ := Memory.wf_cons.mp h
    by_cases hc : c.1 = a
    · simpa [Memory.erase, hc] using ih h4
    · have : Memory.erase (c :: m) a = c :: Memory.erase m a := by simp [Memory.erase, hc]
      rw [this]
      exact Memory.wf_cons.mpr ⟨h1, h2, fun d hd => h3 d (List.mem_filter.mp hd).1, ih h4⟩

theorem Memory.mem_insert {m : Memory} {a : Nat} {v : Byte} {d : Host.Cell} (h : d ∈ Memory.insert a v m) :
    d = (a, v) ∨ d ∈ m := by
  induction m with
  | nil => simpa [Memory.insert] using h
  | cons c m ih =>
    by_cases hc : a < c.1
    · simpa [Memory.insert, hc] using h
    · simp only [Memory.insert, hc, if_false, List.mem_cons] at h ⊢
      rcases h with h | h
      · exact .inr (.inl h)
      · exact (ih h).imp_right .inr

theorem Memory.wf_insert {m : Memory} (h : Memory.wf m = true) {a : Nat} {v : Byte} (ha : a < Config.memSize)
    (hv : v ≠ Config.resetByte) (hm : ∀ c ∈ m, c.1 ≠ a) : Memory.wf (Memory.insert a v m) = true := by
  induction m with
  | nil => exact Memory.wf_cons.mpr ⟨ha, hv, by simp, rfl⟩
  | cons c m ih =>
    obtain ⟨h1, h2, h3, h4⟩ := Memory.wf_cons.mp h
    by_cases hc : a < c.1
    · simp only [Memory.insert, hc, if_true]
      refine Memory.wf_cons.mpr ⟨ha, hv, ?_, h⟩
      intro d hd
      rcases List.mem_cons.mp hd with rfl | hd
      · exact hc
      · exact Nat.lt_trans hc (h3 d hd)
    · have hca : c.1 < a := by have := hm c (by simp); omega
      simp only [Memory.insert, hc, if_false]
      refine Memory.wf_cons.mpr ⟨h1, h2, ?_, ih h4 fun d hd => hm d (by simp [hd])⟩
      intro d hd
      rcases Memory.mem_insert hd with rfl | hd
      · exact hca
      · exact h3 d hd

/-- A byte written to an existing address keeps the canonical form. -/
theorem Memory.wf_writeByte {m : Memory} (h : Memory.wf m = true) {a : Nat} (ha : a < Config.memSize) (v : Byte) :
    Memory.wf (m.writeByte a v) = true := by
  unfold Memory.writeByte
  split
  · exact Memory.wf_erase h a
  · next hv => exact Memory.wf_insert (Memory.wf_erase h a) ha hv fun c hc => Memory.ne_of_mem_erase hc

/-- A word written to an existing slot keeps the canonical form. -/
theorem Memory.wf_writeWord {m : Memory} (h : Memory.wf m = true) {a : Nat} (ha : a + 3 < Config.memSize) (v : Word) :
    Memory.wf (m.writeWord a v) = true :=
  Memory.wf_writeByte (Memory.wf_writeByte (Memory.wf_writeByte (Memory.wf_writeByte h (by omega) _) (by omega) _)
    (by omega) _) ha _

/-- The memory after reset has the canonical form. -/
theorem Memory.wf_reset : Memory.wf State.reset.mem = true := rfl

end Sys2Proof.Machine
end

