-- ==== Sys2Proof/Laws/State.lean ====
section
/-! SUPPORT. One lemma per field per update of `State`, and what the register file reads after a write. -/

namespace Sys2Proof.Machine

/-! ### `State.writeX` -/

@[simp] theorem State.writeX_x (s : State) (i : Fin 17) (v : Word) : (s.writeX i v).x = s.x.set i.val v i.isLt := rfl
@[simp] theorem State.writeX_pc (s : State) (i : Fin 17) (v : Word) : (s.writeX i v).pc = s.pc := rfl
@[simp] theorem State.writeX_mem (s : State) (i : Fin 17) (v : Word) : (s.writeX i v).mem = s.mem := rfl
@[simp] theorem State.writeX_status (s : State) (i : Fin 17) (v : Word) : (s.writeX i v).status = s.status := rfl
@[simp] theorem State.writeX_out (s : State) (i : Fin 17) (v : Word) : (s.writeX i v).out = s.out := rfl
@[simp] theorem State.writeX_inpos (s : State) (i : Fin 17) (v : Word) : (s.writeX i v).inpos = s.inpos := rfl
@[simp] theorem State.writeX_imem (s : State) (i : Fin 17) (v : Word) : (s.writeX i v).imem = s.imem := rfl
@[simp] theorem State.writeX_input (s : State) (i : Fin 17) (v : Word) : (s.writeX i v).input = s.input := rfl

/-! ### `State.goto` -/

@[simp] theorem State.goto_x (s : State) (t : Pc) : (s.goto t).x = s.x := rfl
@[simp] theorem State.goto_pc (s : State) (t : Pc) : (s.goto t).pc = t := rfl
@[simp] theorem State.goto_mem (s : State) (t : Pc) : (s.goto t).mem = s.mem := rfl
@[simp] theorem State.goto_status (s : State) (t : Pc) : (s.goto t).status = s.status := rfl
@[simp] theorem State.goto_out (s : State) (t : Pc) : (s.goto t).out = s.out := rfl
@[simp] theorem State.goto_inpos (s : State) (t : Pc) : (s.goto t).inpos = s.inpos := rfl
@[simp] theorem State.goto_imem (s : State) (t : Pc) : (s.goto t).imem = s.imem := rfl
@[simp] theorem State.goto_input (s : State) (t : Pc) : (s.goto t).input = s.input := rfl

@[simp] theorem State.readX_goto (s : State) (t : Pc) (j : Fin 17) : (s.goto t).readX j = s.readX j := rfl
@[simp] theorem State.sp_goto (s : State) (t : Pc) : (s.goto t).sp = s.sp := rfl
@[simp] theorem State.flags_goto (s : State) (t : Pc) : (s.goto t).flags = s.flags := rfl

/-! ### `State.advance` -/

@[simp] theorem State.advance_x (s : State) : (s.advance).x = s.x := rfl
@[simp] theorem State.advance_pc (s : State) : (s.advance).pc = followingPc s.pc := rfl
@[simp] theorem State.advance_mem (s : State) : (s.advance).mem = s.mem := rfl
@[simp] theorem State.advance_status (s : State) : (s.advance).status = s.status := rfl
@[simp] theorem State.advance_out (s : State) : (s.advance).out = s.out := rfl
@[simp] theorem State.advance_inpos (s : State) : (s.advance).inpos = s.inpos := rfl
@[simp] theorem State.advance_imem (s : State) : (s.advance).imem = s.imem := rfl
@[simp] theorem State.advance_input (s : State) : (s.advance).input = s.input := rfl

@[simp] theorem State.readX_advance (s : State) (j : Fin 17) : (s.advance).readX j = s.readX j := rfl
@[simp] theorem State.sp_advance (s : State) : (s.advance).sp = s.sp := rfl
@[simp] theorem State.flags_advance (s : State) : (s.advance).flags = s.flags := rfl

/-! ### `State.halt` -/

@[simp] theorem State.halt_x (s : State) (k : Status) : (s.halt k).x = s.x := rfl
@[simp] theorem State.halt_pc (s : State) (k : Status) : (s.halt k).pc = s.pc := rfl
@[simp] theorem State.halt_mem (s : State) (k : Status) : (s.halt k).mem = s.mem := rfl
@[simp] theorem State.halt_status (s : State) (k : Status) : (s.halt k).status = k := rfl
@[simp] theorem State.halt_out (s : State) (k : Status) : (s.halt k).out = s.out := rfl
@[simp] theorem State.halt_inpos (s : State) (k : Status) : (s.halt k).inpos = s.inpos := rfl
@[simp] theorem State.halt_imem (s : State) (k : Status) : (s.halt k).imem = s.imem := rfl
@[simp] theorem State.halt_input (s : State) (k : Status) : (s.halt k).input = s.input := rfl

@[simp] theorem State.readX_halt (s : State) (k : Status) (j : Fin 17) : (s.halt k).readX j = s.readX j := rfl
@[simp] theorem State.sp_halt (s : State) (k : Status) : (s.halt k).sp = s.sp := rfl
@[simp] theorem State.flags_halt (s : State) (k : Status) : (s.halt k).flags = s.flags := rfl

/-! ### `State.raise` -/

@[simp] theorem State.raise_x (s : State) (c : FaultCause) : (s.raise c).x = s.x := rfl
@[simp] theorem State.raise_pc (s : State) (c : FaultCause) : (s.raise c).pc = s.pc := rfl
@[simp] theorem State.raise_mem (s : State) (c : FaultCause) : (s.raise c).mem = s.mem := rfl
@[simp] theorem State.raise_status (s : State) (c : FaultCause) : (s.raise c).status = .fault c := rfl
@[simp] theorem State.raise_out (s : State) (c : FaultCause) : (s.raise c).out = s.out := rfl
@[simp] theorem State.raise_inpos (s : State) (c : FaultCause) : (s.raise c).inpos = s.inpos := rfl
@[simp] theorem State.raise_imem (s : State) (c : FaultCause) : (s.raise c).imem = s.imem := rfl
@[simp] theorem State.raise_input (s : State) (c : FaultCause) : (s.raise c).input = s.input := rfl

@[simp] theorem State.readX_raise (s : State) (c : FaultCause) (j : Fin 17) : (s.raise c).readX j = s.readX j := rfl
@[simp] theorem State.sp_raise (s : State) (c : FaultCause) : (s.raise c).sp = s.sp := rfl
@[simp] theorem State.flags_raise (s : State) (c : FaultCause) : (s.raise c).flags = s.flags := rfl

/-! ### `State.emit` -/

@[simp] theorem State.emit_x (s : State) (v : Word) : (s.emit v).x = s.x := rfl
@[simp] theorem State.emit_pc (s : State) (v : Word) : (s.emit v).pc = s.pc := rfl
@[simp] theorem State.emit_mem (s : State) (v : Word) : (s.emit v).mem = s.mem := rfl
@[simp] theorem State.emit_status (s : State) (v : Word) : (s.emit v).status = s.status := rfl
@[simp] theorem State.emit_out (s : State) (v : Word) : (s.emit v).out = s.out ++ [v] := rfl
@[simp] theorem State.emit_inpos (s : State) (v : Word) : (s.emit v).inpos = s.inpos := rfl
@[simp] theorem State.emit_imem (s : State) (v : Word) : (s.emit v).imem = s.imem := rfl
@[simp] theorem State.emit_input (s : State) (v : Word) : (s.emit v).input = s.input := rfl

@[simp] theorem State.readX_emit (s : State) (v : Word) (j : Fin 17) : (s.emit v).readX j = s.readX j := rfl
@[simp] theorem State.sp_emit (s : State) (v : Word) : (s.emit v).sp = s.sp := rfl
@[simp] theorem State.flags_emit (s : State) (v : Word) : (s.emit v).flags = s.flags := rfl

/-! ### `State.consumeInput` -/

@[simp] theorem State.consumeInput_x (s : State) : (s.consumeInput).x = s.x := rfl
@[simp] theorem State.consumeInput_pc (s : State) : (s.consumeInput).pc = s.pc := rfl
@[simp] theorem State.consumeInput_mem (s : State) : (s.consumeInput).mem = s.mem := rfl
@[simp] theorem State.consumeInput_status (s : State) : (s.consumeInput).status = s.status := rfl
@[simp] theorem State.consumeInput_out (s : State) : (s.consumeInput).out = s.out := rfl
@[simp] theorem State.consumeInput_inpos (s : State) : (s.consumeInput).inpos = s.inpos + 1 := rfl
@[simp] theorem State.consumeInput_imem (s : State) : (s.consumeInput).imem = s.imem := rfl
@[simp] theorem State.consumeInput_input (s : State) : (s.consumeInput).input = s.input := rfl

@[simp] theorem State.readX_consumeInput (s : State) (j : Fin 17) : (s.consumeInput).readX j = s.readX j := rfl
@[simp] theorem State.sp_consumeInput (s : State) : (s.consumeInput).sp = s.sp := rfl
@[simp] theorem State.flags_consumeInput (s : State) : (s.consumeInput).flags = s.flags := rfl

/-! ### The register file (10_state.md R10: no aliasing between entries) -/

@[simp] theorem State.readX_writeX_same (s : State) (i : Fin 17) (v : Word) : (s.writeX i v).readX i = v := by
  simp [State.readX, State.writeX, Vector.get_eq_getElem]

theorem State.readX_writeX_of_ne (s : State) {i j : Fin 17} (v : Word) (h : j ≠ i) :
    (s.writeX i v).readX j = s.readX j := by
  have h' : i.val ≠ j.val := fun e => h (Fin.ext e.symm)
  simp [State.readX, State.writeX, Vector.get_eq_getElem, h']

theorem State.readX_writeX (s : State) (i j : Fin 17) (v : Word) :
    (s.writeX i v).readX j = if j = i then v else s.readX j := by
  split
  · next h => subst h; simp
  · next h => exact s.readX_writeX_of_ne v h

theorem State.sp_writeX (s : State) (i : Fin 17) (v : Word) :
    (s.writeX i v).sp = if i = Config.sp then v else s.sp := by
  simp [State.sp, State.readX_writeX, eq_comm]

theorem State.flags_writeX (s : State) (i : Fin 17) (v : Word) :
    (s.writeX i v).flags = if i = Config.flags then v else s.flags := by
  simp [State.flags, State.readX_writeX, eq_comm]

/-- Two register files that read alike are equal. -/
theorem State.x_ext {s t : State} (h : ∀ j : Fin 17, s.readX j = t.readX j) : s.x = t.x := by
  apply Vector.ext
  intro j hj
  simpa [State.readX, Vector.get_eq_getElem] using h ⟨j, hj⟩

/-- Two writes to one register: the later stands. -/
theorem State.writeX_writeX_same (s : State) (i : Fin 17) (v w : Word) : (s.writeX i v).writeX i w = s.writeX i w := by
  simp [State.writeX]

/-- Writes to different registers do not depend on their order. -/
theorem State.writeX_comm (s : State) {i j : Fin 17} (v w : Word) (h : i ≠ j) :
    (s.writeX i v).writeX j w = (s.writeX j w).writeX i v := by
  have h' : i.val ≠ j.val := fun e => h (Fin.ext e)
  simp [State.writeX, Vector.set_comm _ _ h']

end Sys2Proof.Machine
end

