-- ==== Sys2Proof/Laws/Ops.lean ====
section
/-! SUPPORT. For each shared operation, everything it can do, said once; later proofs cite these and do not unfold it. -/

namespace Sys2Proof.Machine

/-! ### `Except`: a chain of checks taken apart -/

@[simp] theorem ok_bind {α β : Type} (a : α) (f : α → Except FaultCause β) :
    ((Except.ok a : Except FaultCause α) >>= f) = f a := rfl

@[simp] theorem error_bind {α β : Type} (c : FaultCause) (f : α → Except FaultCause β) :
    ((Except.error c : Except FaultCause α) >>= f) = .error c := rfl

@[simp] theorem pure_eq_ok {α : Type} (a : α) : (pure a : Except FaultCause α) = .ok a := rfl

theorem bind_ok_iff {α β : Type} {r : Except FaultCause α} {f : α → Except FaultCause β} {b : β} :
    (r >>= f) = .ok b ↔ ∃ a, r = .ok a ∧ f a = .ok b := by
  cases r <;> simp

theorem bind_error_iff {α β : Type} {r : Except FaultCause α} {f : α → Except FaultCause β} {c : FaultCause} :
    (r >>= f) = .error c ↔ r = .error c ∨ ∃ a, r = .ok a ∧ f a = .error c := by
  cases r <;> simp

/-! ### `commit` -/

@[simp] theorem commit_ok (s t : State) : commit s (.ok t) = .next t := rfl

@[simp] theorem commit_error (s : State) (c : FaultCause) : commit s (.error c) = .next (s.raise c) := rfl

/-- A committed meaning always answers a next state: the finished one, or the old one with the fault raised. -/
theorem commit_next_iff {s t : State} {r : Except FaultCause State} :
    commit s r = .next t ↔ r = .ok t ∨ ∃ c, r = .error c ∧ t = s.raise c := by
  cases r with
  | error c => simp [commit, eq_comm]
  | ok u => simp [commit]

/-! ### `reg` (60_exceptions.md R112) -/

theorem reg_of_lt {f : RegField} (h : f.toNat < 16) : reg f = .ok ⟨f.toNat, by omega⟩ := by
  simp [reg, h]

theorem reg_of_ge {f : RegField} (h : 16 ≤ f.toNat) : reg f = .error (.registerIndex f) := by
  simp [reg, Nat.not_lt.mpr h]

theorem reg_ok_iff {f : RegField} {a : Fin 17} : reg f = .ok a ↔ a.val = f.toNat ∧ f.toNat < 16 := by
  by_cases h : f.toNat < 16
  · simp [reg_of_lt h, h, Fin.ext_iff, eq_comm]
  · simp [reg_of_ge (Nat.not_lt.mp h), h]

theorem reg_error_iff {f : RegField} {c : FaultCause} : reg f = .error c ↔ 16 ≤ f.toNat ∧ c = .registerIndex f := by
  by_cases h : f.toNat < 16
  · simp [reg_of_lt h, Nat.not_le.mpr h]
  · simp [reg_of_ge (Nat.not_lt.mp h), Nat.not_lt.mp h, eq_comm]

/-! ### Addresses of the instruction stream as patterns: the same at `PC_BITS = 32` -/

@[simp] theorem wordOfPc_eq (pc : Pc) : wordOfPc pc = pc := BitVec.setWidth_eq pc

@[simp] theorem pcOfWord_eq (w : Word) : pcOfWord w = w := BitVec.setWidth_eq w

/-! ### The address check and the two accesses (20_memory.md R33 to R35) -/

theorem checkAddress_ok_iff {a : Word} : checkAddress a = .ok () ↔ a.toNat % 4 = 0 ∧ a.toNat ≤ 1020 := by
  unfold checkAddress
  split_ifs with h1 h2
  · simp [h1]
  · simp only [false_iff]; simp only [Config.memSize] at h2; omega
  · simp only [Config.memSize] at h2; simp only [true_iff]; omega

theorem checkAddress_error_iff {a : Word} {c : FaultCause} :
    checkAddress a = .error c ↔
      (a.toNat % 4 ≠ 0 ∧ c = .memoryAlignment a) ∨ (a.toNat % 4 = 0 ∧ 1020 < a.toNat ∧ c = .memoryBounds a) := by
  unfold checkAddress
  simp only [Config.memSize]
  split_ifs with h1 h2
  · simp [h1, eq_comm]
  · simp only [Except.error.injEq]
    constructor
    · rintro rfl; exact .inr ⟨by omega, by omega, rfl⟩
    · rintro (⟨h, _⟩ | ⟨_, _, rfl⟩)
      · exact absurd h h1
      · rfl
  · simp only [false_iff]; omega

theorem memRead_ok_iff {s : State} {a v : Word} :
    s.memRead a = .ok v ↔ a.toNat % 4 = 0 ∧ a.toNat ≤ 1020 ∧ v = s.mem.readWord a.toNat := by
  unfold State.memRead
  rw [bind_ok_iff]
  constructor
  · rintro ⟨_, h, hv⟩
    obtain ⟨h1, h2⟩ := checkAddress_ok_iff.mp h
    exact ⟨h1, h2, (Except.ok.inj hv).symm⟩
  · rintro ⟨h1, h2, rfl⟩
    exact ⟨(), checkAddress_ok_iff.mpr ⟨h1, h2⟩, rfl⟩

theorem memRead_error_iff {s : State} {a : Word} {c : FaultCause} :
    s.memRead a = .error c ↔ checkAddress a = .error c := by
  unfold State.memRead
  rw [bind_error_iff]
  simp

theorem memWrite_ok_iff {s t : State} {a v : Word} :
    s.memWrite a v = .ok t ↔
      a.toNat % 4 = 0 ∧ a.toNat ≤ 1020 ∧ t = { s with mem := s.mem.writeWord a.toNat v } := by
  unfold State.memWrite
  rw [bind_ok_iff]
  constructor
  · rintro ⟨_, h, hv⟩
    obtain ⟨h1, h2⟩ := checkAddress_ok_iff.mp h
    exact ⟨h1, h2, (Except.ok.inj hv).symm⟩
  · rintro ⟨h1, h2, rfl⟩
    exact ⟨(), checkAddress_ok_iff.mpr ⟨h1, h2⟩, rfl⟩

theorem memWrite_error_iff {s : State} {a v : Word} {c : FaultCause} :
    s.memWrite a v = .error c ↔ checkAddress a = .error c := by
  unfold State.memWrite
  rw [bind_error_iff]
  simp

/-! ### The fetch (40_fetch_execute_cycle.md R71) -/

theorem fetch_endOfStream_iff {s : State} : fetch s = .endOfStream ↔ s.pc.toNat = 4 * s.imem.length := by
  unfold fetch
  split_ifs with h1 h2
  · simp [h1]
  · simp [h1]
  · split <;> simp [h1]

theorem fetch_word_iff {s : State} {w : Word} :
    fetch s = .word w ↔ s.pc.toNat % 4 = 0 ∧ s.imem[s.pc.toNat / 4]? = some w := by
  unfold fetch
  split_ifs with h1 h2
  · simp only [false_iff]
    rintro ⟨_, h⟩
    have := (List.getElem?_eq_some_iff.mp h).1
    omega
  · simp only [false_iff]
    rintro ⟨h, h'⟩
    have := (List.getElem?_eq_some_iff.mp h').1
    omega
  · have h3 : s.pc.toNat % 4 = 0 := by omega
    split
    · next v hv => simp [h3, hv]
    · next hv => simp [hv]

theorem fetch_badPc_iff {s : State} :
    fetch s = .badPc ↔ s.pc.toNat % 4 ≠ 0 ∨ 4 * s.imem.length < s.pc.toNat := by
  unfold fetch
  split_ifs with h1 h2
  · simp only [false_iff]; omega
  · simp only [true_iff]; omega
  · split
    · simp only [reduceCtorEq, false_iff]; omega
    · next hv =>
      have := List.getElem?_eq_none_iff.mp hv
      omega

/-! ### The step -/

/-- The sequencer in a running state with a legal instruction count. -/
theorem step_of_running {s : State} (hs : s.status = .running) (hn : Program.wellFormed s.imem = true) :
    step s = fetchAndExecute s := by
  simp [step, runLoop, hs, hn]

/-- If a step answers a next state, the state was running and its instruction count legal. -/
theorem step_next_cases {s t : State} (h : step s = .next t) :
    s.status = .running ∧ Program.wellFormed s.imem = true ∧ fetchAndExecute s = .next t := by
  unfold step runLoop at h
  split at h
  · next hs =>
    split at h
    · next hn => exact ⟨hs, hn, h⟩
    · cases h
  · cases h

/-- Everything fetch-decode-execute can do. -/
theorem fetchAndExecute_cases (s : State) :
    (fetch s = .endOfStream ∧ fetchAndExecute s = .next (s.halt .haltEnd)) ∨
    (fetch s = .badPc ∧ fetchAndExecute s = .next (s.raise (.fetch s.pc))) ∨
    (∃ w, fetch s = .word w ∧ fetchAndExecute s = exec (decode w) s) := by
  unfold fetchAndExecute
  split
  · next h => exact .inl ⟨h, rfl⟩
  · next h => exact .inr (.inl ⟨h, rfl⟩)
  · next w h => exact .inr (.inr ⟨w, h, rfl⟩)

end Sys2Proof.Machine
end

