-- ==== Sys2Proof/Laws/Exec.lean ====
section
/-! SUPPORT. What an instruction can do, said once: it raises the fault `instrFault` names, or it has its `effect`. A claim
about many instructions cites `exec_eq` or `exec_next` and goes by cases on `effect`; it does not unfold the meanings. -/

namespace Sys2Proof.Machine

/-- The register a field of 0 to 15 names. -/
def namedRegister (f : RegField) : Fin 17 := if h : f.toNat < 17 then ⟨f.toNat, h⟩ else 0

theorem reg_eq_namedRegister {f : RegField} (h : f.toNat < 16) : reg f = .ok (namedRegister f) := by
  rw [reg_of_lt h]; simp [namedRegister, show f.toNat < 17 by omega]

theorem names_namedRegister {f : RegField} (h : f.toNat < 16) : Names f (namedRegister f) := by
  simp [namedRegister, show f.toNat < 17 by omega, Names, h]

theorem reg_of_names {f : RegField} {a : Fin 17} (h : Names f a) : reg f = .ok a := reg_ok_iff.mpr h

theorem fieldValue_of_lt (s : State) {f : RegField} (h : f.toNat < 16) : fieldValue s f = s.readX (namedRegister f) := by
  simp [fieldValue, namedRegister, show f.toNat < 17 by omega, State.readX]

/-! ### Words in memory -/

theorem readWord_eq_wordAt (m : Memory) (a : Nat) : m.readWord a = wordAt m a := rfl

theorem storesWord_writeWord (m : Memory) (a : Nat) (v : Word) : StoresWord m (m.writeWord a v) a v := by
  refine ⟨?_, ?_, ?_, ?_, fun b hb => Memory.readByte_writeWord_outside m v hb⟩ <;>
    rw [Memory.readByte_writeWord] <;> simp [byteOfWord, Config.dataByteOrder]

/-! ### The effect of an instruction that does not fault -/

/-- The state after an instruction that raises no fault, from the rules of 41_arithmetic.md to 46_unrecognized.md. -/
def effect (i : Instr) (s : State) : State :=
  match i with
  | .subl r1 imm => (s.writeX (namedRegister r1) (s.readX (namedRegister r1) - extData imm)).advance
  | .addlRegReg r1 r2 =>
    (s.writeX (namedRegister r2) (s.readX (namedRegister r1) + s.readX (namedRegister r2))).advance
  | .addlImmReg r1 imm => (s.writeX (namedRegister r1) (s.readX (namedRegister r1) + extData imm)).advance
  | .imull r1 r2 =>
    (s.writeX (namedRegister r2)
      (BitVec.ofInt 32 ((s.readX (namedRegister r2)).toInt * (s.readX (namedRegister r1)).toInt))).advance
  | .shrl r1 => (s.writeX (namedRegister r1) (s.readX (namedRegister r1) >>> 1)).advance
  | .movlRegReg r1 r2 => (s.writeX (namedRegister r2) (s.readX (namedRegister r1))).advance
  | .movlDerefReg r1 r2 imm =>
    (s.writeX (namedRegister r2) (wordAt s.mem (effectiveAddress (fieldValue s r1) imm).toNat)).advance
  | .movlRegDeref r1 r2 imm =>
    { s with mem := s.mem.writeWord (effectiveAddress (fieldValue s r2) imm).toNat (s.readX (namedRegister r1)) }.advance
  | .movlImmReg r1 imm => (s.writeX (namedRegister r1) (zext32 imm)).advance
  | .cmpl r1 r2 =>
    (s.writeX Config.flags (compareFlags (s.readX (namedRegister r1)) (s.readX (namedRegister r2)))).advance
  | .je imm => if condEqual s.flags then s.goto (branchTarget s.pc imm) else s.advance
  | .jl imm => if condLess s.flags then s.goto (branchTarget s.pc imm) else s.advance
  | .jle imm => if condLessEqual s.flags then s.goto (branchTarget s.pc imm) else s.advance
  | .jge imm => if condGreaterEqual s.flags then s.goto (branchTarget s.pc imm) else s.advance
  | .jbe imm => if condBelowEqual s.flags then s.goto (branchTarget s.pc imm) else s.advance
  | .jmp imm => s.goto (branchTarget s.pc imm)
  | .call imm =>
    ({ s with mem := s.mem.writeWord (s.sp - 4).toNat (wordOfPc (followingPc s.pc)) }.writeX Config.sp (s.sp - 4)).goto
      (branchTarget s.pc imm)
  | .ret =>
    if s.sp = Config.stackTop then s.halt .haltRet
    else (s.writeX Config.sp (s.sp + 4)).goto (pcOfWord (wordAt s.mem s.sp.toNat))
  | .pushl r1 =>
    ({ s with
        mem := s.mem.writeWord (s.sp - 4).toNat
          (if namedRegister r1 = Config.sp then s.sp - 4 else s.readX (namedRegister r1)) }.writeX
      Config.sp (s.sp - 4)).advance
  | .popl r1 =>
    ((s.writeX (namedRegister r1) (wordAt s.mem s.sp.toNat)).writeX Config.sp
      ((s.writeX (namedRegister r1) (wordAt s.mem s.sp.toNat)).sp + 4)).advance
  | .printr r1 => (s.emit (s.readX (namedRegister r1))).advance
  | .readr r1 =>
    match s.nextInput with
    | some v => (s.consumeInput.writeX (namedRegister r1) v).advance
    | none => s
  | .unrecognized22 => s.advance
  | .unrecognized23 => s.advance
  | .unrecognized24 => s.advance
  | .unrecognized25 => s.advance
  | .unrecognized26 => s.advance
  | .unrecognized27 => s.advance
  | .unrecognized28 => s.advance
  | .unrecognized29 => s.advance
  | .unrecognized30 => s.advance
  | .unrecognized31 => s.advance

/-! ### The fault or the effect -/

/-- The outcome of an instruction: the fault if there is one, else the finished state. -/
def faultOr (c : Option FaultCause) (s t : State) : Result :=
  match c with
  | some c => .next (s.raise c)
  | none => .next t

/-- The fault of the register fields in their order, else the fault `c` that comes after them. -/
def fieldsFault (fs : List RegField) (c : Option FaultCause) : Option FaultCause :=
  match fs.find? fun f => !f.addressable with
  | some f => some (.registerIndex f)
  | none => c

/-- A meaning that begins with the check of a field. -/
theorem commit_reg (r : RegField) (fs : List RegField) (c : Option FaultCause) (s t : State)
    (g : Fin 17 → Except FaultCause State)
    (h : r.toNat < 16 → commit s (g (namedRegister r)) = faultOr (fieldsFault fs c) s t) :
    commit s (reg r >>= g) = faultOr (fieldsFault (r :: fs) c) s t := by
  by_cases hr : r.toNat < 16
  · rw [reg_eq_namedRegister hr]
    simpa [fieldsFault, RegField.addressable, hr] using h hr
  · rw [reg_of_ge (Nat.not_lt.mp hr)]
    simp [fieldsFault, RegField.addressable, hr, faultOr]

theorem addressFault_cases (a : Word) :
    (addressFault a = none ∧ a.toNat % 4 = 0 ∧ a.toNat ≤ 1020) ∨
    ∃ c, addressFault a = some c ∧ checkAddress a = .error c := by
  unfold addressFault
  split_ifs with h h'
  · exact .inr ⟨_, rfl, checkAddress_error_iff.mpr (.inl ⟨h, rfl⟩)⟩
  · exact .inr ⟨_, rfl, checkAddress_error_iff.mpr (.inr ⟨by omega, h', rfl⟩)⟩
  · exact .inl ⟨rfl, by omega, by omega⟩

/-- A meaning that ends with a load. -/
theorem commit_memRead (s : State) (a : Word) (f : Word → State) :
    commit s (s.memRead a >>= fun v => pure (f v)) = faultOr (addressFault a) s (f (wordAt s.mem a.toNat)) := by
  rcases addressFault_cases a with ⟨e, h1, h2⟩ | ⟨c, e, h⟩
  · rw [e, memRead_ok_iff.mpr ⟨h1, h2, rfl⟩]; rfl
  · rw [e, memRead_error_iff.mpr h]; rfl

/-- A meaning that ends with a store. -/
theorem commit_memWrite (s : State) (a v : Word) (f : State → State) :
    commit s (s.memWrite a v >>= fun t => pure (f t)) =
      faultOr (addressFault a) s (f { s with mem := s.mem.writeWord a.toNat v }) := by
  rcases addressFault_cases a with ⟨e, h1, h2⟩ | ⟨c, e, h⟩
  · rw [e, memWrite_ok_iff.mpr ⟨h1, h2, rfl⟩]; rfl
  · rw [e, memWrite_error_iff.mpr h]; rfl

/-- Every instruction raises its fault, or has its effect. -/
theorem exec_eq (i : Instr) (s : State) : exec i s = faultOr (instrFault i s) s (effect i s) := by
  cases i with
  | subl r1 _ => exact commit_reg r1 [] none s _ _ fun _ => rfl
  | addlRegReg r1 r2 => exact commit_reg r1 [r2] none s _ _ fun _ => commit_reg r2 [] none s _ _ fun _ => rfl
  | addlImmReg r1 _ => exact commit_reg r1 [] none s _ _ fun _ => rfl
  | imull r1 r2 => exact commit_reg r1 [r2] none s _ _ fun _ => commit_reg r2 [] none s _ _ fun _ => rfl
  | shrl r1 => exact commit_reg r1 [] none s _ _ fun _ => rfl
  | movlRegReg r1 r2 => exact commit_reg r1 [r2] none s _ _ fun _ => commit_reg r2 [] none s _ _ fun _ => rfl
  | movlDerefReg r1 r2 imm =>
    refine commit_reg r1 [r2] (addressFault (effectiveAddress (fieldValue s r1) imm)) s _ _ fun h1 =>
      commit_reg r2 [] _ s _ _ fun _ => ?_
    show _ = faultOr (addressFault _) s (effect (.movlDerefReg r1 r2 imm) s)
    rw [effect, fieldValue_of_lt s h1]
    exact commit_memRead s _ _
  | movlRegDeref r1 r2 imm =>
    refine commit_reg r1 [r2] (addressFault (effectiveAddress (fieldValue s r2) imm)) s _ _ fun _ =>
      commit_reg r2 [] _ s _ _ fun h2 => ?_
    show _ = faultOr (addressFault _) s (effect (.movlRegDeref r1 r2 imm) s)
    rw [effect, fieldValue_of_lt s h2]
    exact commit_memWrite s _ _ _
  | movlImmReg r1 _ => exact commit_reg r1 [] none s _ _ fun _ => rfl
  | cmpl r1 r2 => exact commit_reg r1 [r2] none s _ _ fun _ => commit_reg r2 [] none s _ _ fun _ => rfl
  | call imm => exact commit_memWrite s (s.sp - 4) _ _
  | ret =>
    by_cases h : s.sp = Config.stackTop
    · have hf : instrFault .ret s = none := by
        show (Option.or none (if s.sp = Config.stackTop then none else some s.sp)).bind addressFault = none
        rw [if_pos h]; rfl
      rw [hf, effect, if_pos h]
      exact if_pos h
    · have hf : instrFault .ret s = addressFault s.sp := by
        show (Option.or none (if s.sp = Config.stackTop then none else some s.sp)).bind addressFault = _
        rw [if_neg h]; rfl
      rw [hf, effect, if_neg h]
      exact (if_neg h).trans (commit_memRead s s.sp _)
  | pushl r1 => exact commit_reg r1 [] (addressFault (s.sp - 4)) s _ _ fun _ => commit_memWrite s (s.sp - 4) _ _
  | popl r1 => exact commit_reg r1 [] (addressFault s.sp) s _ _ fun _ => commit_memRead s s.sp _
  | printr r1 => exact commit_reg r1 [] none s _ _ fun _ => rfl
  | readr r1 =>
    refine commit_reg r1 [] none s _ _ fun _ => ?_
    show commit s (match s.nextInput with | some v => _ | none => _) = .next (match s.nextInput with | some v => _ | none => _)
    cases s.nextInput <;> rfl
  | je _ => rfl
  | jl _ => rfl
  | jle _ => rfl
  | jge _ => rfl
  | jbe _ => rfl
  | jmp _ => rfl
  | unrecognized22 => rfl
  | unrecognized23 => rfl
  | unrecognized24 => rfl
  | unrecognized25 => rfl
  | unrecognized26 => rfl
  | unrecognized27 => rfl
  | unrecognized28 => rfl
  | unrecognized29 => rfl
  | unrecognized30 => rfl
  | unrecognized31 => rfl

/-- A next state of an instruction is its fault raised, or its effect. -/
theorem exec_next {i : Instr} {s t : State} (h : exec i s = .next t) :
    (∃ c, instrFault i s = some c ∧ t = s.raise c) ∨ (instrFault i s = none ∧ t = effect i s) := by
  rw [exec_eq] at h
  cases hf : instrFault i s with
  | some c => rw [hf] at h; cases h; exact .inl ⟨c, rfl, rfl⟩
  | none => rw [hf] at h; cases h; exact .inr ⟨rfl, rfl⟩

/-- An instruction without a fault uses only fields that name a register. -/
theorem lt_of_instrFault_none {i : Instr} {s : State} (h : instrFault i s = none) :
    ∀ f ∈ i.usedRegisters, f.toNat < 16 := by
  unfold instrFault at h
  split at h
  · cases h
  · next hb =>
    intro f hf
    simpa [RegField.addressable] using List.find?_eq_none.mp hb f hf

/-- The data address of an instruction without a fault is that of a word slot. -/
theorem dataAddress_of_instrFault_none {i : Instr} {s : State} {a : Word} (h : instrFault i s = none)
    (ha : dataAddress i s = some a) : a.toNat % 4 = 0 ∧ a.toNat ≤ 1020 := by
  unfold instrFault at h
  split at h
  · cases h
  · rw [ha] at h
    rcases addressFault_cases a with ⟨_, h1, h2⟩ | ⟨c, e, _⟩
    · exact ⟨h1, h2⟩
    · simp [e] at h

end Sys2Proof.Machine
end

