-- ==== Sys2Proof/Laws/PerInstr.lean ====
section
/-! SUPPORT. A law of every instruction as syntax, one lemma per constructor: the opcode number and the fields its record
holds select it back (30_encoding.md R55, R59). -/

namespace Sys2Proof.Laws.FieldsSelectBack

/-- The record of the instruction selects the instruction. -/
def Statement (i : Instr) : Prop := selectInstr i.toRecord = i

theorem subl (r1 : RegField) (imm : Imm16) : Statement (.subl r1 imm) := rfl

theorem addlRegReg (r1 : RegField) (r2 : RegField) : Statement (.addlRegReg r1 r2) := rfl

theorem addlImmReg (r1 : RegField) (imm : Imm16) : Statement (.addlImmReg r1 imm) := rfl

theorem imull (r1 : RegField) (r2 : RegField) : Statement (.imull r1 r2) := rfl

theorem shrl (r1 : RegField) : Statement (.shrl r1) := rfl

theorem movlRegReg (r1 : RegField) (r2 : RegField) : Statement (.movlRegReg r1 r2) := rfl

theorem movlDerefReg (r1 : RegField) (r2 : RegField) (imm : Imm16) : Statement (.movlDerefReg r1 r2 imm) := rfl

theorem movlRegDeref (r1 : RegField) (r2 : RegField) (imm : Imm16) : Statement (.movlRegDeref r1 r2 imm) := rfl

theorem movlImmReg (r1 : RegField) (imm : Imm16) : Statement (.movlImmReg r1 imm) := rfl

theorem cmpl (r1 : RegField) (r2 : RegField) : Statement (.cmpl r1 r2) := rfl

theorem je (imm : Imm16) : Statement (.je imm) := rfl

theorem jl (imm : Imm16) : Statement (.jl imm) := rfl

theorem jle (imm : Imm16) : Statement (.jle imm) := rfl

theorem jge (imm : Imm16) : Statement (.jge imm) := rfl

theorem jbe (imm : Imm16) : Statement (.jbe imm) := rfl

theorem jmp (imm : Imm16) : Statement (.jmp imm) := rfl

theorem call (imm : Imm16) : Statement (.call imm) := rfl

theorem ret : Statement .ret := rfl

theorem pushl (r1 : RegField) : Statement (.pushl r1) := rfl

theorem popl (r1 : RegField) : Statement (.popl r1) := rfl

theorem printr (r1 : RegField) : Statement (.printr r1) := rfl

theorem readr (r1 : RegField) : Statement (.readr r1) := rfl

theorem unrecognized22 : Statement .unrecognized22 := rfl

theorem unrecognized23 : Statement .unrecognized23 := rfl

theorem unrecognized24 : Statement .unrecognized24 := rfl

theorem unrecognized25 : Statement .unrecognized25 := rfl

theorem unrecognized26 : Statement .unrecognized26 := rfl

theorem unrecognized27 : Statement .unrecognized27 := rfl

theorem unrecognized28 : Statement .unrecognized28 := rfl

theorem unrecognized29 : Statement .unrecognized29 := rfl

theorem unrecognized30 : Statement .unrecognized30 := rfl

theorem unrecognized31 : Statement .unrecognized31 := rfl

end Sys2Proof.Laws.FieldsSelectBack
end

