-- ==== Sys2Proof/Tests/Slice0.lean ====
section
/-! SUPPORT. The model's own tests. Expected values come from the spec: a name such as AR2 or PU5 in a comment is a vector of
95_test_vectors.md. The witnesses at the end show, for each statement with hypotheses, states and operands that meet them,
clause by clause, at the ends of the ranges. -/

namespace Sys2Proof.Machine.Tests

/-! ### Decoding: one word per constructor, from the encodings of the spec -/

theorem test_decode_subl : decode 0x0001FFFF = .subl 0 65535 := by decide -- DEC9
theorem test_decode_addlRegReg : decode 0x08020000 = .addlRegReg 0 1 := by decide -- AR7
theorem test_decode_addlImmReg : decode 0x11800004 = .addlImmReg 6 4 := by decide -- AR14
theorem test_decode_imull : decode 0x18420000 = .imull 1 1 := by decide -- AR23
theorem test_decode_shrl : decode 0x200E001F = .shrl 0 := by decide -- AR27
theorem test_decode_movlRegReg : decode 0x280C0000 = .movlRegReg 0 6 := by decide -- MV3
theorem test_decode_movlDerefReg : decode 0x31820004 = .movlDerefReg 6 1 4 := by decide -- DEC4
theorem test_decode_movlRegDeref : decode 0x384C0004 = .movlRegDeref 1 6 4 := by decide -- ST7
theorem test_decode_movlImmReg : decode 0x4140FFFF = .movlImmReg 5 65535 := by decide -- MV4
theorem test_decode_cmpl : decode 0x48800000 = .cmpl 2 0 := by decide -- P3
theorem test_decode_je : decode 0x50000008 = .je 8 := by decide -- R92
theorem test_decode_jl : decode 0x5800FFF0 = .jl 65520 := by decide -- DEC5
theorem test_decode_jle : decode 0x60000004 = .jle 4 := by decide -- R94
theorem test_decode_jge : decode 0x68000004 = .jge 4 := by decide -- R95
theorem test_decode_jbe : decode 0x70000008 = .jbe 8 := by decide -- P4
theorem test_decode_jmp : decode 0x7800FFEC = .jmp 65516 := by decide -- R97
theorem test_decode_call : decode 0x83FE0010 = .call 16 := by decide -- CA5
theorem test_decode_ret : decode 0x8FFEFFFF = .ret := by decide -- RET2
theorem test_decode_pushl : decode 0x91800000 = .pushl 6 := by decide -- PU2
theorem test_decode_popl : decode 0x98400000 = .popl 1 := by decide -- PO1
theorem test_decode_printr : decode 0xA0400000 = .printr 1 := by decide -- P1
theorem test_decode_readr : decode 0xA8800000 = .readr 2 := by decide -- IO9
theorem test_decode_unrecognized22 : decode 0xB7FFFFFF = .unrecognized22 := by decide -- UN1
theorem test_decode_unrecognized23 : decode 0xBFFFFFFF = .unrecognized23 := by decide -- UN4
theorem test_decode_unrecognized24 : decode 0xC7FFFFFF = .unrecognized24 := by decide -- UN4
theorem test_decode_unrecognized25 : decode 0xCFFFFFFF = .unrecognized25 := by decide -- UN4
theorem test_decode_unrecognized26 : decode 0xD7FFFFFF = .unrecognized26 := by decide -- UN4
theorem test_decode_unrecognized27 : decode 0xDFFFFFFF = .unrecognized27 := by decide -- UN4
theorem test_decode_unrecognized28 : decode 0xE7FFFFFF = .unrecognized28 := by decide -- UN4
theorem test_decode_unrecognized29 : decode 0xEFFFFFFF = .unrecognized29 := by decide -- UN4
theorem test_decode_unrecognized30 : decode 0xF7FFFFFF = .unrecognized30 := by decide -- UN4
theorem test_decode_unrecognized31 : decode 0xF8000000 = .unrecognized31 := by decide -- DEC6

/-- DEC1, DEC2, DEC3, DEC7, DEC8: fields at their ends, bit 16 and unused fields dropped. -/
theorem test_decode_fields :
    decodeRecord 0xFFFFFFFF = ⟨31, 31, 31, 65535⟩ ∧ decodeRecord 0x00010000 = ⟨0, 0, 0, 0⟩ ∧
    decodeRecord 0x31820004 = ⟨6, 6, 1, 4⟩ ∧ decode 0x07C00000 = .subl 31 0 ∧ decode 0x003E0000 = .subl 0 0 := by decide

/-- The encoder writes the words of the spec's programs P2 and P3. -/
theorem test_encode_words :
    encode (.movlRegDeref 1 6 4) = 0x384C0004 ∧ encode (.movlDerefReg 6 1 4) = 0x31820004 ∧
    encode (.jmp 65516) = 0x7800FFEC ∧ encode (.popl 3) = 0x98C00000 := by decide

/-- The host's question about a table row, and about more bits than a word has. -/
theorem test_decodeTableWord :
    decodeTableWord 32 0xA8800000 = some (.readr 2) ∧ decodeTableWord 8 0xFF = some (.subl 0 255) ∧
    decodeTableWord 40 0 = none := by decide

/-! ### Well-formedness: each check refuses an ill-formed term -/

theorem smoke_subl : (Instr.subl 16 0).wellFormed = false := by decide
theorem smoke_addlRegReg : (Instr.addlRegReg 16 0).wellFormed = false ∧ (Instr.addlRegReg 0 16).wellFormed = false := by decide
theorem smoke_addlImmReg : (Instr.addlImmReg 16 0).wellFormed = false := by decide
theorem smoke_imull : (Instr.imull 16 0).wellFormed = false ∧ (Instr.imull 0 31).wellFormed = false := by decide
theorem smoke_shrl : (Instr.shrl 16).wellFormed = false := by decide
theorem smoke_movlRegReg : (Instr.movlRegReg 17 0).wellFormed = false ∧ (Instr.movlRegReg 0 16).wellFormed = false := by decide
theorem smoke_movlDerefReg : (Instr.movlDerefReg 16 0 0).wellFormed = false ∧ (Instr.movlDerefReg 0 16 0).wellFormed = false := by decide
theorem smoke_movlRegDeref : (Instr.movlRegDeref 16 0 0).wellFormed = false ∧ (Instr.movlRegDeref 0 16 0).wellFormed = false := by decide
theorem smoke_movlImmReg : (Instr.movlImmReg 16 0).wellFormed = false := by decide
theorem smoke_cmpl : (Instr.cmpl 16 0).wellFormed = false ∧ (Instr.cmpl 0 16).wellFormed = false := by decide
theorem smoke_pushl : (Instr.pushl 16).wellFormed = false := by decide
theorem smoke_popl : (Instr.popl 20).wellFormed = false := by decide
theorem smoke_printr : (Instr.printr 16).wellFormed = false := by decide
theorem smoke_readr : (Instr.readr 16).wellFormed = false := by decide

/-- Register 15 is the last a field may name, and unused fields are not looked at. -/
theorem smoke_accepts : (Instr.movlRegDeref 15 15 65535).wellFormed = true ∧ (decode 0x8FFEFFFF).wellFormed = true := by
  decide

/-- One word more than the largest count is no legal instruction store. -/
theorem smoke_too_many_words : Program.wellFormed (List.replicate (2 ^ 30) 0) = false := by
  rw [Program.wellFormed, List.length_replicate]; decide

/-- The largest count is legal. -/
theorem smoke_most_words : Program.wellFormed (List.replicate (2 ^ 30 - 1) 0) = true := by
  rw [Program.wellFormed, List.length_replicate]; decide

/-- The canonical form of memory: order, no zero cell, no address from 1024 up. -/
theorem smoke_memory :
    Memory.wf [(0, 1), (1023, 2)] = true ∧ Memory.wf [(4, 1), (4, 2)] = false ∧ Memory.wf [(4, 1), (0, 2)] = false ∧
    Memory.wf [(4, 0)] = false ∧ Memory.wf [(1024, 1)] = false := by decide

/-! ### One step each, from the vectors of 95_test_vectors.md -/

/-- The reset state with the given words to run and some registers set. -/
def given (words : List Word) (regs : List (Fin 17 × Word)) : State :=
  regs.foldl (fun s p => s.writeX p.1 p.2) (State.start words [])

/-- The same with a word of memory set. -/
def withWord (s : State) (a : Nat) (v : Word) : State := { s with mem := s.mem.writeWord a v }

/-- The same at pc 8 with the word there. -/
def at8 (w : Word) (regs : List (Fin 17 × Word)) : State := { given [0, 0, w] regs with pc := 8 }

/-- What one step leaves, looked at through `f`; nothing if there is no next state. -/
def after {α : Type} (s : State) (f : State → α) : Option α :=
  match step s with
  | .next t => some (f t)
  | _ => none

theorem test_subl_wraps : -- AR3
    after (given [0x00C00001] [(3, 0x80000000)]) (fun t => (t.x.get 3, t.pc, t.flags)) = some (0x7FFFFFFF, 4, 0) := by decide
theorem test_subl_zero_extends : -- AR1
    after (given [0x0000FFFF] [(0, 0x00010000)]) (fun t => (t.x.get 0, t.pc)) = some (1, 4) := by decide
theorem test_addlRegReg_wraps : -- AR9
    after (given [0x08020000] [(0, 0xFFFFFFFF), (1, 1)]) (fun t => (t.x.get 0, t.x.get 1, t.pc)) = some (0xFFFFFFFF, 0, 4) := by decide
theorem test_addlRegReg_first_field_faults : -- AR29
    after (given [0x0C220000] []) (fun t => t.status) = some (.fault (.registerIndex 16)) := by decide
theorem test_addlImmReg_zero_extends : -- AR12
    after (given [0x10008000] []) (fun t => (t.x.get 0, t.pc)) = some (0x8000, 4) := by decide
theorem test_addlImmReg_moves_sp : -- AR14
    after (given [0x11800004] [(6, 1016)]) (fun t => (t.sp, t.pc)) = some (1020, 4) := by decide
theorem test_imull_low_word : -- AR22
    after (given [0x18020000] [(0, 0x12345678), (1, 0x9ABCDEF0)]) (fun t => (t.x.get 0, t.x.get 1)) = some (0x12345678, 0x242D2080) := by decide
theorem test_imull_signs : -- AR20
    after (given [0x18020000] [(0, 0xFFFFFFFF), (1, 0x80000000)]) (fun t => t.x.get 1) = some 0x80000000 := by decide
theorem test_shrl_is_logical : -- AR24
    after (given [0x20000000] [(0, 0x80000001)]) (fun t => (t.x.get 0, t.flags)) = some (0x40000000, 0) := by decide
theorem test_shrl_by_one_only : -- AR27
    after (given [0x200E001F] [(0, 0x100)]) (fun t => t.x.get 0) = some 0x80 := by decide
theorem test_movlRegReg_direction : -- MV1
    after (given [0x28020000] [(0, 0xDEADBEEF)]) (fun t => (t.x.get 0, t.x.get 1)) = some (0xDEADBEEF, 0xDEADBEEF) := by decide
theorem test_movlRegReg_to_sp : -- MV3
    after (given [0x280C0000] [(0, 0x200)]) (fun t => (t.sp, t.pc)) = some (0x200, 4) := by decide
theorem test_movlDerefReg_base_is_destination : -- LD2
    after (withWord (given [0x30840004] [(2, 16)]) 20 77) (fun t => t.x.get 2) = some 77 := by decide
theorem test_movlDerefReg_alignment_first : -- LD12
    after (given [0x300203FE] []) (fun t => t.status) = some (.fault (.memoryAlignment 1022)) := by decide
theorem test_movlRegDeref_bytes : -- ST1
    after (given [0x38020004] [(0, 0xA1B2C3D4), (1, 100)]) (fun t => t.mem) = some ([(104, 0xD4), (105, 0xC3), (106, 0xB2), (107, 0xA1)]) := by decide
theorem test_movlRegDeref_bounds : -- ST3
    after (given [0x38020000] [(0, 1), (1, 1024)]) (fun t => (t.status, t.mem)) = some (.fault (.memoryBounds 1024), []) := by decide
theorem test_movlImmReg_zero_extends : -- MV4
    after (given [0x4140FFFF] [(5, 0xFFFFFFFF)]) (fun t => (t.x.get 5, t.pc)) = some (0xFFFF, 4) := by decide
theorem test_cmpl_signed_boundary : -- section 4, row 6, old flags overwritten
    after (given [0x48020000] [(0, 0x7FFFFFFF), (1, 0x80000000), (16, 0x81)]) (fun t => t.flags) = some 0x800 := by decide
theorem test_cmpl_reverse : -- section 4, row 7
    after (given [0x48020000] [(0, 0x80000000), (1, 0x7FFFFFFF)]) (fun t => t.flags) = some 0x881 := by decide
theorem test_je_taken : -- R92's example at pc 8
    after (at8 0x50000008 [(16, 0x040)]) (fun t => t.pc) = some 0x14 := by decide
theorem test_je_not_taken : after (at8 0x50000008 [(16, 0x881)]) (fun t => t.pc) = some 12 := by decide -- section 5
theorem test_jl_taken_back : -- section 5, displacement -12
    after (at8 0x5800FFF4 [(16, 0x800)]) (fun t => t.pc) = some 0 := by decide
theorem test_jl_not_taken : after (at8 0x5800FFF4 [(16, 0x881)]) (fun t => t.pc) = some 12 := by decide -- section 5
theorem test_jle_taken : after (given [0x60000004] [(16, 0x040)]) (fun t => t.pc) = some 8 := by decide -- R94
theorem test_jle_not_taken : after (given [0x60000004] [(16, 0x881)]) (fun t => t.pc) = some 4 := by decide -- R94
theorem test_jge_taken : after (given [0x68000004] [(16, 0x881)]) (fun t => t.pc) = some 8 := by decide -- R95
theorem test_jge_not_taken : after (given [0x68000004] [(16, 0x800)]) (fun t => t.pc) = some 4 := by decide -- R95
theorem test_jbe_taken : after (given [0x70000004] [(16, 0x001)]) (fun t => t.pc) = some 8 := by decide -- R96
theorem test_jbe_not_taken : after (given [0x70000004] [(16, 0x080)]) (fun t => t.pc) = some 4 := by decide -- R96
theorem test_jmp_back_wraps : -- R97, BR12
    after (given [0x7800FFF8] []) (fun t => (t.pc, t.status)) = some (0xFFFFFFFC, .running) := by decide
theorem test_call_pushes : -- CA1
    after (at8 0x80000010 []) (fun t => (t.sp, t.mem.readWord 1020, t.pc)) = some (1020, 12, 0x1C) := by decide
theorem test_call_overflow : -- CA4
    after (at8 0x80000010 [(6, 0)]) (fun t => (t.status, t.sp, t.pc)) = some (.fault (.memoryBounds 0xFFFFFFFC), 0, 8) := by decide
theorem test_ret_halts : -- RET2
    after (at8 0x8FFEFFFF []) (fun t => (t.status, t.pc)) = some (.haltRet, 8) := by decide
theorem test_ret_pops : -- RET3
    after (withWord (at8 0x88000000 [(6, 1020)]) 1020 12) (fun t => (t.status, t.pc, t.sp, t.mem.readWord 1020)) = some (.running, 12, 1024, 12) := by decide
theorem test_pushl_sp : -- PU2
    after (given [0x91800000] []) (fun t => (t.sp, t.mem.readWord 1020)) = some (0x3FC, 0x3FC) := by decide
theorem test_pushl_misaligned : -- PU5
    after (given [0x90000000] [(6, 1022)]) (fun t => (t.status, t.sp)) = some (.fault (.memoryAlignment 1018), 1022) := by decide
theorem test_popl_sp : -- PO2
    after (withWord (given [0x99800000] [(6, 1016)]) 1016 0x100) (fun t => t.sp) = some 0x104 := by decide
theorem test_popl_empty : -- PO3
    after (given [0x98000000] []) (fun t => (t.status, t.sp)) = some (.fault (.memoryBounds 1024), 1024) := by decide
theorem test_printr_emits : -- R105
    after (given [0xA0400000] [(1, 120)]) (fun t => (t.out, t.pc)) = some ([120], 4) := by decide
theorem test_printr_flags_fault : -- IO7
    after (given [0xA4000000] []) (fun t => (t.out, t.status)) = some ([], .fault (.registerIndex 16)) := by decide
theorem test_readr_consumes : -- IO10
    after (State.start [0xA8800000] [0xFFFFFFF9]) (fun t => (t.x.get 2, t.inpos, t.pc)) = some (0xFFFFFFF9, 1, 4) := by decide
theorem test_readr_holds : -- IO11
    after (given [0xA8800000] []) (fun t => (t.status, t.inpos, t.pc)) = some (.running, 0, 0) := by decide
theorem test_unrecognized22_is_no_op : -- UN
    after (given [0xB7FFFFFF] [(0, 5), (16, 0x081)]) (fun t => (t.x.get 0, t.flags, t.pc)) = some (5, 0x081, 4) := by decide
theorem test_unrecognized23_is_no_op : -- UN
    after (given [0xBFFFFFFF] [(0, 5), (16, 0x081)]) (fun t => (t.x.get 0, t.flags, t.pc)) = some (5, 0x081, 4) := by decide
theorem test_unrecognized24_is_no_op : -- UN
    after (given [0xC7FFFFFF] [(0, 5), (16, 0x081)]) (fun t => (t.x.get 0, t.flags, t.pc)) = some (5, 0x081, 4) := by decide
theorem test_unrecognized25_is_no_op : -- UN
    after (given [0xCFFFFFFF] [(0, 5), (16, 0x081)]) (fun t => (t.x.get 0, t.flags, t.pc)) = some (5, 0x081, 4) := by decide
theorem test_unrecognized26_is_no_op : -- UN
    after (given [0xD7FFFFFF] [(0, 5), (16, 0x081)]) (fun t => (t.x.get 0, t.flags, t.pc)) = some (5, 0x081, 4) := by decide
theorem test_unrecognized27_is_no_op : -- UN
    after (given [0xDFFFFFFF] [(0, 5), (16, 0x081)]) (fun t => (t.x.get 0, t.flags, t.pc)) = some (5, 0x081, 4) := by decide
theorem test_unrecognized28_is_no_op : -- UN
    after (given [0xE7FFFFFF] [(0, 5), (16, 0x081)]) (fun t => (t.x.get 0, t.flags, t.pc)) = some (5, 0x081, 4) := by decide
theorem test_unrecognized29_is_no_op : -- UN
    after (given [0xEFFFFFFF] [(0, 5), (16, 0x081)]) (fun t => (t.x.get 0, t.flags, t.pc)) = some (5, 0x081, 4) := by decide
theorem test_unrecognized30_is_no_op : -- UN
    after (given [0xF7FFFFFF] [(0, 5), (16, 0x081)]) (fun t => (t.x.get 0, t.flags, t.pc)) = some (5, 0x081, 4) := by decide
theorem test_unrecognized31_is_no_op : -- UN
    after (given [0xFFFFFFFF] [(0, 5), (16, 0x081)]) (fun t => (t.x.get 0, t.flags, t.pc)) = some (5, 0x081, 4) := by decide

/-! ### The sequencer -/

theorem test_end_of_stream : after (given [] []) (fun t => (t.status, t.pc)) = some (.haltEnd, 0) := by decide -- SEQ1

theorem test_misaligned_fetch : -- RET4
    after { given [0, 0, 0, 0] [] with pc := 14 } (fun t => (t.status, t.pc)) = some (.fault (.fetch 14), 14) := by decide

theorem test_fetch_beyond_end : -- BR14
    after { given [0, 0] [] with pc := 12 } (fun t => (t.status, t.pc)) = some (.fault (.fetch 12), 12) := by decide

theorem test_no_step_after_halt : after { given [0] [] with status := .haltRet } (fun t => t.pc) = none := by decide -- SEQ6

/-- The host's word is the one the next step runs, at reset and further on. -/
theorem test_withFetchWord :
    after (State.reset.withFetchWord 32 0x4140FFFF) (fun t => (t.x.get 5, t.pc)) = some (0xFFFF, 4) ∧
    ({ given [1, 2] [] with pc := 16 }.withFetchWord 32 7).imem = [1, 2, 0, 0, 7] := by decide

/-! ### The host's side -/

theorem test_inputValues : -- R106, IO10, program P7; "12x" is no integer, so nothing after it arrives
    inputValues "-3 7\n-2147483648 ".toList = [0xFFFFFFFD, 7, 0x80000000] ∧ inputValues "5 12x 6".toList = [5] ∧
    inputValues "4294967296 1".toList = [] := by decide

theorem test_renderLine : renderLine 0x80000000 = "-2147483648 (0x80000000)\n".toList := by decide -- IO3

theorem test_diagnostic : -- R116: pc and word, and no word where the pc is not fetchable
    diagnostic { given [0x98000000] [] with status := .fault (.memoryBounds 1024) } =
      some (.memoryBounds 1024, 0, some 0x98000000) ∧
    diagnostic { given [0] [] with pc := 6, status := .fault (.fetch 6) } = some (.fetch 6, 6, none) := by decide

/-! ### Witnesses: the hypotheses of each statement can be met, clause by clause -/

theorem names_first : Names 0 0 := ⟨rfl, by decide⟩
theorem names_last : Names 15 15 := ⟨rfl, by decide⟩
theorem names_sp : Names 6 6 := ⟨rfl, by decide⟩
theorem not_a_register : 16 ≤ (16 : RegField).toNat ∧ 16 ≤ (31 : RegField).toNat := by decide
theorem second_not_a_register : (15 : RegField).toNat < 16 ∧ 16 ≤ (16 : RegField).toNat := by decide

theorem witness_IgnoredBitsDoNotMatter :
    (0x200E001F : Word) &&& usedBits ((0x200E001F : Word).toNat / 2 ^ 27) =
      0x20000000 &&& usedBits ((0x200E001F : Word).toNat / 2 ^ 27) := by decide

theorem witness_SublSubtractsImmediate : Names 15 15 ∧ 16 ≤ (16 : RegField).toNat := ⟨names_last, by decide⟩
theorem witness_AddlImmRegAddsImmediate : Names 15 15 ∧ 16 ≤ (16 : RegField).toNat := ⟨names_last, by decide⟩
theorem witness_ShrlHalvesUnsigned : Names 15 15 ∧ 16 ≤ (16 : RegField).toNat := ⟨names_last, by decide⟩
theorem witness_MovlImmRegLoadsConstant : Names 15 15 ∧ 16 ≤ (16 : RegField).toNat := ⟨names_last, by decide⟩
theorem witness_PrintrAppendsRegister : Names 15 15 ∧ 16 ≤ (16 : RegField).toNat := ⟨names_last, by decide⟩

theorem witness_AddlRegRegAddsRegisters :
    (Names 15 15 ∧ Names 0 0) ∧ 16 ≤ (16 : RegField).toNat ∧ (15 : RegField).toNat < 16 ∧ 16 ≤ (16 : RegField).toNat :=
  ⟨⟨names_last, names_first⟩, by decide⟩
theorem witness_ImullKeepsLowProduct :
    (Names 15 15 ∧ Names 0 0) ∧ 16 ≤ (16 : RegField).toNat ∧ (15 : RegField).toNat < 16 ∧ 16 ≤ (16 : RegField).toNat :=
  ⟨⟨names_last, names_first⟩, by decide⟩
theorem witness_MovlRegRegCopies :
    (Names 15 15 ∧ Names 0 0) ∧ 16 ≤ (16 : RegField).toNat ∧ (15 : RegField).toNat < 16 ∧ 16 ≤ (16 : RegField).toNat :=
  ⟨⟨names_last, names_first⟩, by decide⟩

/-- Loads: addresses 1020 (by wrap-around), 0, 1021 and 1024. -/
theorem witness_MovlDerefRegLoadsWord :
    (Names 15 15 ∧ Names 0 0 ∧ 1020 = (((given [] [(15, 0xFFFFFFFC)]).x.get 15).toNat + (1024 : Imm16).toNat) % 2 ^ 32) ∧
    (0 = (((given [] []).x.get 15).toNat + (0 : Imm16).toNat) % 2 ^ 32) ∧
    (1021 = (((given [] []).x.get 15).toNat + (1021 : Imm16).toNat) % 2 ^ 32 ∧ 1021 % 4 ≠ 0) ∧
    (1024 = (((given [] []).x.get 15).toNat + (1024 : Imm16).toNat) % 2 ^ 32 ∧ 1024 % 4 = 0 ∧ 1020 < 1024) ∧
    16 ≤ (16 : RegField).toNat ∧ (15 : RegField).toNat < 16 :=
  ⟨⟨names_last, names_first, by decide⟩, by decide⟩

/-- Stores: the same addresses, the base in the second field. -/
theorem witness_MovlRegDerefStoresWord :
    (Names 0 0 ∧ Names 15 15 ∧ 1020 = (((given [] [(15, 0xFFFFFFFC)]).x.get 15).toNat + (1024 : Imm16).toNat) % 2 ^ 32) ∧
    (0 = (((given [] []).x.get 15).toNat + (0 : Imm16).toNat) % 2 ^ 32) ∧
    (1021 = (((given [] []).x.get 15).toNat + (1021 : Imm16).toNat) % 2 ^ 32 ∧ 1021 % 4 ≠ 0) ∧
    (1024 = (((given [] []).x.get 15).toNat + (1024 : Imm16).toNat) % 2 ^ 32 ∧ 1024 % 4 = 0 ∧ 1020 < 1024) ∧
    16 ≤ (16 : RegField).toNat ∧ (15 : RegField).toNat < 16 :=
  ⟨⟨names_first, names_last, by decide⟩, by decide⟩

/-- `cmpl`: the source's boundary pair. -/
theorem witness_CmplSetsFlags :
    let s := given [] [(0, 0x7FFFFFFF), (15, 0x80000000)]
    let cmp : Int := -4294967295
    Names 0 0 ∧ Names 15 15 ∧ cmp = (s.x.get 15).toInt - (s.x.get 0).toInt ∧
      false = decide ((s.x.get 0).toNat > (s.x.get 15).toNat) ∧ false = decide (cmp = 0) ∧
      false = (BitVec.ofInt 64 cmp).getLsbD 31 ∧ true = decide (cmp < -2 ^ 31 ∨ cmp > 2 ^ 31 - 1) ∧
      16 ≤ (16 : RegField).toNat ∧ (15 : RegField).toNat < 16 :=
  ⟨names_first, names_last, by decide⟩

/-- Branches: flags 0x881 and the farthest displacement back, which wraps. -/
theorem witness_ConditionalBranchesTestFlags :
    let s := given [] [(16, 0x881)]
    (0xFFFF8004 : Word) = BitVec.ofInt 32 (s.pc.toNat + 4 + (0x8000 : Imm16).toInt) ∧ true = (s.x.get 16).getLsbD 0 ∧
      false = (s.x.get 16).getLsbD 6 ∧ true = (s.x.get 16).getLsbD 7 ∧ true = (s.x.get 16).getLsbD 11 := by decide

/-- Pushes: the first and the last slot, a misaligned address, and the first and last addresses that do not exist. -/
theorem witness_CallPushesReturnAddress :
    (1020 : Word) = (given [] []).x.get 6 - 4 ∧ (0 : Word) = (given [] [(6, 4)]).x.get 6 - 4 ∧
    ((1018 : Word) = (given [] [(6, 1022)]).x.get 6 - 4 ∧ (1018 : Word).toNat % 4 ≠ 0) ∧
    ((1024 : Word) = (given [] [(6, 1028)]).x.get 6 - 4 ∧ (1024 : Word).toNat % 4 = 0 ∧ 1020 < (1024 : Word).toNat) ∧
    ((0xFFFFFFFC : Word) = (given [] [(6, 0)]).x.get 6 - 4 ∧ (0xFFFFFFFC : Word).toNat % 4 = 0 ∧
      1020 < (0xFFFFFFFC : Word).toNat) := by decide
theorem witness_PushlStoresBelowStackPointer :
    (Names 15 15 ∧ Names 6 6) ∧ ((1020 : Word) = (given [] []).x.get 6 - 4 ∧ (1020 : Word).toNat ≤ 1020) ∧
    ((1018 : Word) = (given [] [(6, 1022)]).x.get 6 - 4 ∧ (1018 : Word).toNat % 4 ≠ 0) ∧
    ((0xFFFFFFFC : Word) = (given [] [(6, 0)]).x.get 6 - 4 ∧ (0xFFFFFFFC : Word).toNat % 4 = 0 ∧
      1020 < (0xFFFFFFFC : Word).toNat) ∧ 16 ≤ (16 : RegField).toNat :=
  ⟨⟨names_last, names_sp⟩, by decide⟩

/-- Pops: the empty stack, the highest and the lowest slot, a misaligned pointer, a pointer beyond the top. -/
theorem witness_RetHaltsOrPops :
    (given [] []).x.get 6 = Config.stackTop ∧
    ((1020 : Word) = (given [] [(6, 1020)]).x.get 6 ∧ (1020 : Word) ≠ Config.stackTop ∧ (1020 : Word).toNat % 4 = 0 ∧
      (1020 : Word).toNat ≤ 1020) ∧
    ((0 : Word) = (given [] [(6, 0)]).x.get 6 ∧ (0 : Word) ≠ Config.stackTop ∧ (0 : Word).toNat % 4 = 0) ∧
    ((1018 : Word) = (given [] [(6, 1018)]).x.get 6 ∧ (1018 : Word) ≠ Config.stackTop ∧ (1018 : Word).toNat % 4 ≠ 0) ∧
    ((1028 : Word) = (given [] [(6, 1028)]).x.get 6 ∧ (1028 : Word) ≠ Config.stackTop ∧ (1028 : Word).toNat % 4 = 0 ∧
      1020 < (1028 : Word).toNat) := by decide
theorem witness_PoplLoadsAtStackPointer :
    (Names 15 15 ∧ Names 6 6) ∧ ((1020 : Word) = (given [] [(6, 1020)]).x.get 6 ∧ (1020 : Word).toNat ≤ 1020) ∧
    ((0 : Word) = (given [] [(6, 0)]).x.get 6 ∧ (0 : Word).toNat % 4 = 0) ∧
    ((1018 : Word) = (given [] [(6, 1018)]).x.get 6 ∧ (1018 : Word).toNat % 4 ≠ 0) ∧
    ((1024 : Word) = (given [] []).x.get 6 ∧ (1024 : Word).toNat % 4 = 0 ∧ 1020 < (1024 : Word).toNat) ∧
    16 ≤ (16 : RegField).toNat :=
  ⟨⟨names_last, names_sp⟩, by decide⟩

theorem witness_ReadrConsumesOrHolds :
    (Names 15 15 ∧ (State.start [] [9]).input[(State.start [] [9]).inpos]? = some 9) ∧
    ((15 : RegField).toNat < 16 ∧ (State.start [] []).input.length ≤ (State.start [] []).inpos) ∧
    16 ≤ (16 : RegField).toNat :=
  ⟨⟨names_last, by decide⟩, by decide⟩

theorem witness_UnrecognizedOpcodesAreNoOps :
    0xB0000000 ≤ (0xB0000000 : Word).toNat ∧ 0xB0000000 ≤ (0xFFFFFFFF : Word).toNat := by decide

theorem witness_MemoryAccessChecksAndBytes :
    ((1022 : Word).toNat % 4 ≠ 0 ∧ (0xFFFFFFFE : Word).toNat % 4 ≠ 0) ∧
    ((1024 : Word).toNat % 4 = 0 ∧ 1020 < (1024 : Word).toNat) ∧
    ((1020 : Word).toNat % 4 = 0 ∧ (1020 : Word).toNat ≤ 1020) ∧ ((0 : Word).toNat % 4 = 0 ∧ (0 : Word).toNat ≤ 1020) := by
  decide

theorem witness_ReadReturnsLatestWrite : State.reset.memWrite 1020 7 = .ok (withWord State.reset 1020 7) := rfl

theorem witness_ResetLeavesSpecifiedState :
    (∃ imem input, State.start [1] [2] = State.start imem input) ∧ (1023 : Nat) < 1024 := ⟨⟨[1], [2], rfl⟩, by decide⟩

theorem witness_ResetMeetsInvariant : Program.wellFormed (List.replicate (2 ^ 30 - 1) 0) = true := smoke_most_words

/-- A state that meets the invariant, with memory, flags and an input in use. -/
def lively (words : List Word) : State :=
  { withWord (given words [(0, 16), (16, 0x881)]) 1020 0xA1B200D4 with input := [5, 6], inpos := 1 }

theorem lively_inv (words : List Word) (h : Program.wellFormed words = true) : Inv (lively words) where
  memory_wf := by show Memory.wf (Memory.writeWord [] 1020 0xA1B200D4) = true; decide
  flags_from_cmpl := by show (0x881 : Word) ∈ compareResults; decide
  consumed_le_delivered := by show 1 ≤ [(5 : Word), 6].length; decide
  count_legal := h
  status_explained := trivial

/-- A step that goes on, a step that faults, a step that ends the run. -/
theorem witness_StepKeepsInvariant :
    (Inv (lively [0xA8800000]) ∧ ∃ t, step (lively [0xA8800000]) = .next t ∧ t.x.get 2 = 6) ∧
    (Inv (lively [0x98000000]) ∧ ∃ t, step (lively [0x98000000]) = .next t ∧ t.status = .fault (.memoryBounds 1024)) ∧
    (Inv (lively [0x88000000]) ∧ ∃ t, step (lively [0x88000000]) = .next t ∧ t.status = .haltRet) :=
  ⟨⟨lively_inv _ rfl, _, rfl, by decide⟩, ⟨lively_inv _ rfl, _, rfl, by decide⟩, ⟨lively_inv _ rfl, _, rfl, by decide⟩⟩

/-- A run that compares, waits for input, is given it and reads it. -/
theorem witness_RunsKeepFlagsReachable :
    Program.wellFormed [0x48000000, 0xA8800000] = true ∧
    ∃ t, Reaches (State.start [0x48000000, 0xA8800000] []) t ∧ t.flags = 0x040 ∧ t.x.get 2 = 9 :=
  ⟨rfl, _, .step (.deliver 9 (.step (.step .start rfl) rfl)) rfl, by decide, by decide⟩

theorem witness_StepRunsDecodedInstruction :
    let s := at8 0xA0400000 []
    s.status = .running ∧ Program.wellFormed s.imem = true ∧ s.pc.toNat = 4 * 2 ∧ s.imem[2]? = some 0xA0400000 ∧
      decode 0xA0400000 = .printr 1 := by decide

theorem witness_SequencerEndsOrFaultsAtFetch :
    let s := given [0, 0] []
    s.status = .running ∧ Program.wellFormed s.imem = true ∧ ({ s with pc := 8 }.pc.toNat = 4 * s.imem.length) ∧
      ({ s with pc := 7 }.pc.toNat % 4 ≠ 0) ∧ (4 * s.imem.length < { s with pc := 12 }.pc.toNat) := by decide

theorem witness_TerminalStatusTakesNoStep :
    { State.reset with status := .haltRet }.status ≠ .running ∧ { State.reset with status := .haltEnd }.status ≠ .running ∧
    { State.reset with status := .fault (.fetch 2) }.status ≠ .running := by decide

theorem witness_TooManyWordsRefused :
    let s := State.start (List.replicate (2 ^ 30) 0) []
    s.status = .running ∧ 2 ^ 30 - 1 < s.imem.length := by
  refine ⟨rfl, ?_⟩
  show 2 ^ 30 - 1 < (List.replicate (2 ^ 30) (0 : Word)).length
  rw [List.length_replicate]; decide

theorem witness_EveryInstructionHasNextState :
    State.reset.status = .running ∧ Program.wellFormed State.reset.imem = true := by decide

theorem witness_RunsKeepInstructionStore : ∃ t, Reaches (lively [0xA0000000]) t ∧ t.out = [16] ∧ t.input = [5, 6, 7] :=
  ⟨_, .deliver 7 (.step .start rfl), by decide, by decide⟩

/-- Two inputs that agree on the next value alone. -/
theorem witness_StepReadsOnlyNextInput :
    ∀ w r1, fetch (lively [0xA8800000]) = .word w → decode w = .readr r1 →
      [0, 6, 7][(lively [0xA8800000]).inpos]? = (lively [0xA8800000]).input[(lively [0xA8800000]).inpos]? :=
  fun _ _ _ _ => rfl

/-- Each fault, at a step where a later one of the order would apply as well, and none. -/
theorem witness_StepReportsFirstFault :
    stepFault { given [0x98000000] [] with pc := 2 } = some (.fetch 2) ∧
    stepFault (given [0x34220001] []) = some (.registerIndex 16) ∧
    stepFault (given [0x30220001] []) = some (.registerIndex 17) ∧
    stepFault (given [0x300203FE] []) = some (.memoryAlignment 1022) ∧
    stepFault (given [0x30020400] []) = some (.memoryBounds 1024) ∧ stepFault (given [0x300203FC] []) = none := by decide

theorem witness_FaultChangesOnlyStatus :
    ∃ t, step (given [0x98000000] []) = .next t ∧ t.status = .fault (.memoryBounds 1024) := ⟨_, rfl, rfl⟩

theorem witness_RegisterFaultIffIllFormed :
    State.reset.status = .running ∧ (Instr.cmpl 0 16).wellFormed = false ∧ (Instr.cmpl 15 15).wellFormed = true := by decide

theorem witness_UnwrittenRegistersKeepValue :
    (∃ t, exec (.popl 1) (lively []) = .next t) ∧ ¬ Writes (.popl 1) 16 ∧ ¬ Writes (.popl 1) 2 :=
  ⟨⟨_, rfl⟩, by rintro (h | ⟨h, _⟩) <;> exact absurd h (by decide), by rintro (h | ⟨h, _⟩) <;> exact absurd h (by decide)⟩

theorem witness_UntouchedRegistersDoNotMatter : ¬ Touches (.jmp 4) 16 ∧ ¬ Touches .unrecognized31 6 := by
  simp [Touches, implicitRegisters, Instr.usedRegisters]

/-- A store to 104 to 107 looked at from both sides, and an instruction that stores nothing. -/
theorem witness_UnstoredBytesKeepValue :
    (∃ t, exec (.movlRegDeref 0 1 4) (given [] [(1, 100)]) = .next t) ∧
    storeAddress (.movlRegDeref 0 1 4) (given [] [(1, 100)]) = some 104 ∧
    ((103 : Nat) < (104 : Word).toNat ∧ (104 : Word).toNat + 4 ≤ 108) ∧ storeAddress (.printr 0) State.reset = none :=
  ⟨⟨_, rfl⟩, by decide⟩

theorem witness_ChannelsAndStatusFrame :
    (∃ t, exec (.printr 0) (lively []) = .next t ∧ t.out = [16]) ∧ (∃ t, exec (.readr 0) (lively []) = .next t ∧ t.inpos = 2) ∧
    (∃ t, exec .ret (lively []) = .next t ∧ t.status = .haltRet) :=
  ⟨⟨_, rfl, by decide⟩, ⟨_, rfl, by decide⟩, ⟨_, rfl, rfl⟩⟩

theorem witness_DefaultNextPcIsFollowing :
    (∃ t, exec (.readr 0) (lively []) = .next t) ∧ redirects (.readr 0) = false ∧
    instrFault (.readr 0) (lively []) = none ∧ (lively []).inpos < (lively []).input.length :=
  ⟨⟨_, rfl⟩, by decide⟩

/-- Other instructions, a call and a return among them. -/
theorem witness_FlagsPersistUntilNextCmpl :
    (∀ i ∈ [Instr.subl 0 1, .call 8, .ret, .readr 0], ∀ r1 r2, i ≠ .cmpl r1 r2) ∧
    ∃ t, execAll [.subl 0 1, .call 8, .ret, .readr 0] (lively []) = .next t ∧ t.flags = 0x881 := by
  refine ⟨?_, _, rfl, by decide⟩
  intro i hi r1 r2
  simp only [List.mem_cons, List.not_mem_nil, or_false] at hi
  rcases hi with rfl | rfl | rfl | rfl <;> nofun

theorem witness_BranchAfterCmplFollowsOrder :
    let s := given [] [(0, 0x7FFFFFFF), (15, 0x80000000)]
    Names 0 0 ∧ Names 15 15 ∧ (0x7FFFFFFF : Word) = s.x.get 0 ∧ (0x80000000 : Word) = s.x.get 15 ∧
      ∃ t, exec (.cmpl 0 15) s = .next t ∧ (t.goto 8).x.get 16 = t.x.get 16 ∧
        (0 : Word) = BitVec.ofInt 32 ((t.goto 8).pc.toNat + 4 + (0xFFF4 : Imm16).toInt) :=
  ⟨names_first, names_last, by decide, by decide, _, rfl, rfl, by decide⟩

/-- The whole stack, and the stack pointer itself pushed. -/
theorem witness_PushesThenPopsRestore :
    (15 : RegField).toNat < 16 ∧ (6 : RegField).toNat < 16 ∧ State.reset.status = .running ∧ State.reset.sp.toNat % 4 = 0 ∧
      State.reset.sp.toNat ≤ 1024 ∧ 4 * 256 ≤ State.reset.sp.toNat := by decide

theorem witness_CallThenRetReturns :
    (State.reset.sp.toNat % 4 = 0 ∧ 4 ≤ State.reset.sp.toNat ∧ State.reset.sp.toNat ≤ 1024) ∧
    ((given [] [(6, 4)]).sp.toNat % 4 = 0 ∧ 4 ≤ (given [] [(6, 4)]).sp.toNat ∧ (given [] [(6, 4)]).sp.toNat ≤ 1024) := by
  decide

theorem witness_LoadConstantThenPrint : (15 : RegField).toNat < 16 ∧ State.reset.status = .running := by decide

theorem witness_StoreThenLoadCopies :
    let s := given [] [(1, 0xFFFFFFFC)]
    Names 0 0 ∧ Names 1 1 ∧ Names 15 15 ∧ s.status = .running ∧
      1020 = ((s.x.get 1).toNat + (1024 : Imm16).toNat) % 2 ^ 32 ∧ 1020 % 4 = 0 ∧ 1020 ≤ 1020 :=
  ⟨names_first, ⟨rfl, by decide⟩, names_last, by decide⟩

theorem witness_HeldReadrCompletesOnDelivery : Names 15 15 ∧ State.reset.inpos = State.reset.input.length :=
  ⟨names_last, rfl⟩

theorem witness_HostSeesOutputThenEndState :
    ((lively []).status = .running ∧ State.reset.status = .running ∧ (lively []).out = State.reset.out) ∧
    { State.reset with status := .haltEnd }.status ≠ .running := by decide

theorem witness_OpcodeMapSelectsOrNoOp :
    mnemonicOf (decodeRecord 0xB0000000).opcode = none ∧ mnemonicOf (decodeRecord 0xFFFFFFFF).opcode = none := by decide

end Sys2Proof.Machine.Tests
end

section
/-! The memory accesses (20_memory.md R33 to R35): each case of the address check, followed through `MemRead` and
`MemWrite` by the laws of the two accesses. -/

namespace Sys2Proof.Machine

/-! ### An address the check refuses -/

/-- The check comes before the access, so both accesses raise the fault it finds. -/
theorem memRead_and_memWrite_error {a : Word} {c : FaultCause} (h : checkAddress a = .error c) (s : State) (v : Word) :
    s.memRead a = .error c ∧ s.memWrite a v = .error c :=
  ⟨memRead_error_iff.mpr h, memWrite_error_iff.mpr h⟩

theorem checkAddress_of_misaligned {a : Word} (h : a.toNat % 4 ≠ 0) : checkAddress a = .error (.memoryAlignment a) :=
  checkAddress_error_iff.mpr (.inl ⟨h, rfl⟩)

theorem checkAddress_of_beyond {a : Word} (haligned : a.toNat % 4 = 0) (hbeyond : 1020 < a.toNat) :
    checkAddress a = .error (.memoryBounds a) :=
  checkAddress_error_iff.mpr (.inr ⟨haligned, hbeyond, rfl⟩)

/-! ### An address the check lets pass -/

theorem memRead_eq_wordAt (s : State) {a : Word} (haligned : a.toNat % 4 = 0) (hbound : a.toNat ≤ 1020) :
    s.memRead a = .ok (wordAt s.mem a.toNat) :=
  memRead_ok_iff.mpr ⟨haligned, hbound, (readWord_eq_wordAt s.mem a.toNat).symm⟩

theorem memWrite_eq_writeWord (s : State) {a : Word} (v : Word) (haligned : a.toNat % 4 = 0) (hbound : a.toNat ≤ 1020) :
    s.memWrite a v = .ok { s with mem := s.mem.writeWord a.toNat v } :=
  memWrite_ok_iff.mpr ⟨haligned, hbound, rfl⟩

/-! ### The claim -/

/-- Settles O25, by the three outcomes of the address check. -/
theorem memoryAccessChecksAndBytes : Obligations.MemoryAccessChecksAndBytes := by
  unfold Obligations.MemoryAccessChecksAndBytes
  intro s a v
  refine ⟨fun hmisaligned => ?misaligned, fun haligned hbeyond => ?beyond, fun haligned hbound => ?valid⟩
  case misaligned => exact memRead_and_memWrite_error (checkAddress_of_misaligned hmisaligned) s v
  case beyond => exact memRead_and_memWrite_error (checkAddress_of_beyond haligned hbeyond) s v
  case valid =>
    exact ⟨memRead_eq_wordAt s haligned hbound, s.mem.writeWord a.toNat v,
      memWrite_eq_writeWord s v haligned hbound, storesWord_writeWord s.mem a.toNat v⟩

end Sys2Proof.Machine
end

section
/-! The four fields of a word (30_encoding.md R50): the number each one holds, and the array of records. -/

namespace Sys2Proof.Machine

/-! ### A field is a quotient and a remainder of the word -/

/-- The rule the four fields share: a slice of `len` bits from bit `start` on, read as a number. -/
theorem toNat_slice (w : Word) (start len : Nat) :
    (w.extractLsb' start len).toNat = w.toNat / 2 ^ start % 2 ^ len := by
  rw [BitVec.extractLsb'_toNat, Nat.shiftRight_eq_div_pow]

/-- The opcode is the top field, so the quotient alone gives it: a word is below `2 ^ 32`. -/
theorem toNat_decodeRecord_opcode (w : Word) : (decodeRecord w).opcode.toNat = w.toNat / 2 ^ 27 := by
  have hquotient : w.toNat / 2 ^ 27 < 2 ^ 5 := Nat.div_lt_of_lt_mul w.isLt
  exact (toNat_slice w 27 5).trans (Nat.mod_eq_of_lt hquotient)

theorem toNat_decodeRecord_r1 (w : Word) : (decodeRecord w).r1.toNat = w.toNat / 2 ^ 22 % 32 :=
  toNat_slice w 22 5

theorem toNat_decodeRecord_r2 (w : Word) : (decodeRecord w).r2.toNat = w.toNat / 2 ^ 17 % 32 :=
  toNat_slice w 17 5

/-- The immediate is the bottom field, so the remainder alone gives it. -/
theorem toNat_decodeRecord_imm (w : Word) : (decodeRecord w).imm.toNat = w.toNat % 65536 := by
  have hslice : (decodeRecord w).imm.toNat = w.toNat / 2 ^ 0 % 2 ^ 16 := toNat_slice w 0 16
  rwa [Nat.pow_zero, Nat.div_one] at hslice

/-! ### The claim -/

/-- Settles O1: a rule per field, the source's two words computed, and the array by the library's facts on `List.map`. -/
theorem decodeSplitsWordIntoFields : Obligations.DecodeSplitsWordIntoFields := by
  unfold Obligations.DecodeSplitsWordIntoFields
  refine ⟨fun w => ?fields, ?allOnes, ?zero, fun ws => ?array⟩
  case fields =>
    exact ⟨toNat_decodeRecord_opcode w, toNat_decodeRecord_r1 w, toNat_decodeRecord_r2 w, toNat_decodeRecord_imm w⟩
  case allOnes => decide
  case zero => decide
  case array => exact ⟨List.length_map decodeRecord, fun _ => List.getElem?_map⟩

end Sys2Proof.Machine
end

section
/-! The checks before a fetch (40_fetch_execute_cycle.md R71): what a step does where they let no instruction be fetched. -/

namespace Sys2Proof.Machine

/-! ### The sequencer where nothing is fetched -/

theorem fetchAndExecute_of_endOfStream {s : State} (h : fetch s = .endOfStream) :
    fetchAndExecute s = .next (s.halt .haltEnd) := by
  rw [fetchAndExecute, h]

theorem fetchAndExecute_of_badPc {s : State} (h : fetch s = .badPc) :
    fetchAndExecute s = .next (s.raise (.fetch s.pc)) := by
  rw [fetchAndExecute, h]

/-! ### The claim -/

/-- Settles O32: in a running state with a legal count the step is the sequencer's, and each condition on the pc says which
of its checks decides. `halt` and `raise` are the status change alone. -/
theorem sequencerEndsOrFaultsAtFetch : Obligations.SequencerEndsOrFaultsAtFetch := by
  unfold Obligations.SequencerEndsOrFaultsAtFetch
  intro s hrunning hcount
  rw [step_of_running hrunning hcount]
  refine ⟨fun hend => ?endOfStream, fun hbad => ?badPc⟩
  case endOfStream => exact fetchAndExecute_of_endOfStream (fetch_endOfStream_iff.mpr hend)
  case badPc => exact fetchAndExecute_of_badPc (fetch_badPc_iff.mpr hbad)

end Sys2Proof.Machine
end

section
/-! The arithmetic instructions (41_arithmetic.md): the word each one decodes from, its register faults in their order, and
the value it leaves in a register. -/

namespace Sys2Proof.Machine

/-! ### Decoding a word of given fields -/

/-- Bit 16 selects nothing (30_encoding.md R51). -/
theorem decode_wordOf (opcode : OpcodeField) (r1 r2 : RegField) (bit16 : BitVec 1) (imm : Imm16) :
    decode (wordOf opcode r1 r2 bit16 imm) = selectInstr ⟨opcode, r1, r2, imm⟩ :=
  congrArg selectInstr (decodeRecord_append opcode r1 r2 bit16 imm)

/-! ### The register fields of an instruction -/

theorem namedRegister_of_names {f : RegField} {a : Fin 17} (h : Names f a) : namedRegister f = a :=
  Except.ok.inj ((reg_eq_namedRegister h.2).symm.trans (reg_of_names h))

theorem addressable_of_lt {f : RegField} (h : f.toNat < 16) : f.addressable = true := decide_eq_true h

theorem addressable_of_ge {f : RegField} (h : 16 ≤ f.toNat) : f.addressable = false :=
  decide_eq_false (Nat.not_lt.mpr h)

theorem exec_of_firstBadField {i : Instr} {f : RegField} (s : State) (h : firstBadField i = some f) :
    exec i s = .next { s with status := .fault (.registerIndex f) } := by
  rw [exec_eq, instrFault, h]
  rfl

/-- The first field is checked before everything else. -/
theorem exec_of_first_field_ge {i : Instr} {r : RegField} {fs : List RegField} (s : State)
    (hused : i.usedRegisters = r :: fs) (hr : 16 ≤ r.toNat) :
    exec i s = .next { s with status := .fault (.registerIndex r) } := by
  refine exec_of_firstBadField s ?_
  rw [firstBadField, hused, List.find?_cons_of_pos (by rw [addressable_of_ge hr]; rfl)]

/-- The second field is checked once the first has passed. -/
theorem exec_of_second_field_ge {i : Instr} {r1 r2 : RegField} {fs : List RegField} (s : State)
    (hused : i.usedRegisters = r1 :: r2 :: fs) (h1 : r1.toNat < 16) (h2 : 16 ≤ r2.toNat) :
    exec i s = .next { s with status := .fault (.registerIndex r2) } := by
  refine exec_of_firstBadField s ?_
  rw [firstBadField, hused, List.find?_cons_of_neg (by simp [addressable_of_lt h1]),
    List.find?_cons_of_pos (by rw [addressable_of_ge h2]; rfl)]

/-- An instruction on registers alone has its effect when each of its fields names a register. -/
theorem exec_eq_effect_of_fields_lt {i : Instr} {s : State} (haddress : dataAddress i s = none)
    (hfields : ∀ f ∈ i.usedRegisters, f.toNat < 16) : exec i s = .next (effect i s) := by
  have hgood : firstBadField i = none :=
    List.find?_eq_none.mpr fun f hf => by simp [addressable_of_lt (hfields f hf)]
  rw [exec_eq, instrFault, hgood, haddress]
  rfl

theorem exec_eq_effect_of_names {i : Instr} {r : RegField} {a : Fin 17} {s : State} (haddress : dataAddress i s = none)
    (hused : i.usedRegisters = [r]) (h : Names r a) : exec i s = .next (effect i s) :=
  exec_eq_effect_of_fields_lt haddress (by simpa [hused] using h.2)

theorem exec_eq_effect_of_names_names {i : Instr} {r1 r2 : RegField} {a b : Fin 17} {s : State}
    (haddress : dataAddress i s = none) (hused : i.usedRegisters = [r1, r2]) (h1 : Names r1 a) (h2 : Names r2 b) :
    exec i s = .next (effect i s) :=
  exec_eq_effect_of_fields_lt haddress (by simpa [hused] using ⟨h1.2, h2.2⟩)

/-! ### The values (41_arithmetic.md R79: modulo `2 ^ 32`) -/

/-- The immediate is widened with zeros (decision D3). -/
theorem toNat_extData (imm : Imm16) : (extData imm).toNat = imm.toNat := BitVec.toNat_setWidth_of_le (by decide)

theorem add_extData (v : Word) (imm : Imm16) : v + extData imm = BitVec.ofNat 32 (v.toNat + imm.toNat) := by
  rw [BitVec.add_def, toNat_extData]

theorem ofInt_toNat_sub_toNat (v w : Word) : BitVec.ofInt 32 (v.toNat - w.toNat) = v - w := by
  rw [Int.sub_eq_add_neg, BitVec.ofInt_add, BitVec.ofInt_neg, BitVec.ofInt_natCast, BitVec.ofInt_natCast,
    BitVec.ofNat_toNat, BitVec.ofNat_toNat, BitVec.setWidth_eq, BitVec.setWidth_eq, ← BitVec.sub_eq_add_neg]

theorem sub_extData (v : Word) (imm : Imm16) : v - extData imm = BitVec.ofInt 32 (v.toNat - imm.toNat) := by
  rw [← ofInt_toNat_sub_toNat, toNat_extData]

/-- The low half of the product is the product of the patterns, so it does not depend on the reading of their signs. -/
theorem ofInt_toInt_mul_toInt (v w : Word) :
    BitVec.ofInt 32 (v.toInt * w.toInt) = BitVec.ofNat 32 (v.toNat * w.toNat) :=
  calc BitVec.ofInt 32 (v.toInt * w.toInt)
    _ = v * w := by rw [BitVec.ofInt_mul, BitVec.ofInt_toInt, BitVec.ofInt_toInt]
    _ = BitVec.ofNat 32 (v.toNat * w.toNat) := BitVec.mul_def

theorem ushiftRight_one (v : Word) : v >>> 1 = BitVec.ofNat 32 (v.toNat / 2) := by
  apply BitVec.eq_of_toNat_eq
  have hbound := v.isLt
  rw [BitVec.toNat_ushiftRight, Nat.shiftRight_eq_div_pow, BitVec.toNat_ofNat]
  omega

/-! ### One register written and the pc moved on -/

/-- The state after an arithmetic instruction, written out, with the value in any form it equals. -/
theorem next_writeX_advance (s : State) (a : Fin 17) {v w : Word} (h : v = w) :
    (.next (s.writeX a v).advance : Result) = .next { s with x := s.x.set a w, pc := s.pc + 4 } :=
  h ▸ rfl

/-! ### The instructions on registers they name -/

theorem exec_subl_of_names {r1 : RegField} {a : Fin 17} (imm : Imm16) (s : State) (ha : Names r1 a) :
    exec (.subl r1 imm) s = .next (s.writeX a (s.readX a - extData imm)).advance := by
  rw [exec_eq_effect_of_names rfl rfl ha, effect, namedRegister_of_names ha]

theorem exec_addlRegReg_of_names {r1 r2 : RegField} {a b : Fin 17} (s : State) (ha : Names r1 a) (hb : Names r2 b) :
    exec (.addlRegReg r1 r2) s = .next (s.writeX b (s.readX a + s.readX b)).advance := by
  rw [exec_eq_effect_of_names_names rfl rfl ha hb, effect, namedRegister_of_names ha, namedRegister_of_names hb]

theorem exec_addlImmReg_of_names {r1 : RegField} {a : Fin 17} (imm : Imm16) (s : State) (ha : Names r1 a) :
    exec (.addlImmReg r1 imm) s = .next (s.writeX a (s.readX a + extData imm)).advance := by
  rw [exec_eq_effect_of_names rfl rfl ha, effect, namedRegister_of_names ha]

theorem exec_imull_of_names {r1 r2 : RegField} {a b : Fin 17} (s : State) (ha : Names r1 a) (hb : Names r2 b) :
    exec (.imull r1 r2) s =
      .next (s.writeX b (BitVec.ofInt 32 ((s.readX b).toInt * (s.readX a).toInt))).advance := by
  rw [exec_eq_effect_of_names_names rfl rfl ha hb, effect, namedRegister_of_names ha, namedRegister_of_names hb]

theorem exec_shrl_of_names {r1 : RegField} {a : Fin 17} (s : State) (ha : Names r1 a) :
    exec (.shrl r1) s = .next (s.writeX a (s.readX a >>> 1)).advance := by
  rw [exec_eq_effect_of_names rfl rfl ha, effect, namedRegister_of_names ha]

/-! ### The claims -/

/-- Settles O6: subtracting the zero-extended immediate is subtracting the numbers and wrapping. -/
theorem sublSubtractsImmediate : Obligations.SublSubtractsImmediate := by
  unfold Obligations.SublSubtractsImmediate
  intro r1 r2 bit16 imm s
  refine ⟨decode_wordOf 0 r1 r2 bit16 imm, fun a ha => ?effect, fun hr1 => ?fault⟩
  case effect =>
    rw [exec_subl_of_names imm s ha]
    exact next_writeX_advance s a (sub_extData (s.readX a) imm)
  case fault => exact exec_of_first_field_ge s rfl hr1

/-- Settles O7: the sum of two patterns is that of their numbers, wrapped; also for one register in both fields. -/
theorem addlRegRegAddsRegisters : Obligations.AddlRegRegAddsRegisters := by
  unfold Obligations.AddlRegRegAddsRegisters
  intro r1 r2 bit16 imm s
  refine ⟨decode_wordOf 1 r1 r2 bit16 imm, fun a b ha hb => ?effect, fun hr1 => ?fault1, fun hr1 hr2 => ?fault2⟩
  case effect =>
    rw [exec_addlRegReg_of_names s ha hb]
    exact next_writeX_advance s b (BitVec.add_def (s.readX a) (s.readX b))
  case fault1 => exact exec_of_first_field_ge s rfl hr1
  case fault2 => exact exec_of_second_field_ge s rfl hr1 hr2

/-- Settles O8: the zero-extended immediate adds its number, 0x8000 as 32768. -/
theorem addlImmRegAddsImmediate : Obligations.AddlImmRegAddsImmediate := by
  unfold Obligations.AddlImmRegAddsImmediate
  intro r1 r2 bit16 imm s
  refine ⟨decode_wordOf 2 r1 r2 bit16 imm, fun a ha => ?effect, fun hr1 => ?fault⟩
  case effect =>
    rw [exec_addlImmReg_of_names imm s ha]
    exact next_writeX_advance s a (add_extData (s.readX a) imm)
  case fault => exact exec_of_first_field_ge s rfl hr1

/-- Settles O9: the model keeps the low half of the signed product, which is that of the unsigned one. -/
theorem imullKeepsLowProduct : Obligations.ImullKeepsLowProduct := by
  unfold Obligations.ImullKeepsLowProduct
  intro r1 r2 bit16 imm s
  refine ⟨decode_wordOf 3 r1 r2 bit16 imm, fun a b ha hb => ?effect, fun hr1 => ?fault1, fun hr1 hr2 => ?fault2⟩
  case effect =>
    rw [exec_imull_of_names s ha hb]
    exact ⟨next_writeX_advance s b rfl, next_writeX_advance s b (ofInt_toInt_mul_toInt (s.readX b) (s.readX a))⟩
  case fault1 => exact exec_of_first_field_ge s rfl hr1
  case fault2 => exact exec_of_second_field_ge s rfl hr1 hr2

/-- Settles O10: a logical shift right by one is the quotient by two. -/
theorem shrlHalvesUnsigned : Obligations.ShrlHalvesUnsigned := by
  unfold Obligations.ShrlHalvesUnsigned
  intro r1 r2 bit16 imm s
  refine ⟨decode_wordOf 4 r1 r2 bit16 imm, fun a ha => ?effect, fun hr1 => ?fault⟩
  case effect =>
    rw [exec_shrl_of_names s ha]
    exact next_writeX_advance s a (ushiftRight_one (s.readX a))
  case fault => exact exec_of_first_field_ge s rfl hr1

end Sys2Proof.Machine
end

section
/-! The data movement instructions (42_data_movement.md): the effective address of the two memory forms, the outcome of a
data access by its address, and what each instruction leaves. -/

namespace Sys2Proof.Machine

/-! ### The effective address (20_memory.md R38) -/

theorem fieldValue_of_names (s : State) {f : RegField} {a : Fin 17} (h : Names f a) : fieldValue s f = s.readX a := by
  rw [fieldValue_of_lt s h.2, namedRegister_of_names h]

/-- The offset is widened with zeros (decision D3) and the sum wraps (decision D4). -/
theorem toNat_effectiveAddress (base : Word) (imm : Imm16) :
    (effectiveAddress base imm).toNat = (base.toNat + imm.toNat) % 2 ^ 32 := by
  rw [effectiveAddress, BitVec.toNat_add, toNat_extData]

/-! ### An instruction with a data address -/

theorem fields_lt_of_names_names {i : Instr} {r1 r2 : RegField} {a b : Fin 17} (hused : i.usedRegisters = [r1, r2])
    (h1 : Names r1 a) (h2 : Names r2 b) : ∀ f ∈ i.usedRegisters, f.toNat < 16 := by
  simpa [hused] using ⟨h1.2, h2.2⟩

/-- Once every field names a register, a fault can come from the data address alone. -/
theorem instrFault_of_fields_lt {i : Instr} (s : State) (hfields : ∀ f ∈ i.usedRegisters, f.toNat < 16) :
    instrFault i s = (dataAddress i s).bind addressFault := by
  have hgood : firstBadField i = none :=
    List.find?_eq_none.mpr fun f hf => by simp [addressable_of_lt (hfields f hf)]
  rw [instrFault, hgood]

theorem exec_eq_of_dataAddress {i : Instr} {s : State} {a : Word} (haddress : dataAddress i s = some a)
    (hfields : ∀ f ∈ i.usedRegisters, f.toNat < 16) : exec i s = faultOr (addressFault a) s (effect i s) := by
  rw [exec_eq, instrFault_of_fields_lt s hfields, haddress, Option.bind_some]

theorem faultOr_addressFault_of_misaligned {a : Word} (s t : State) (h : a.toNat % 4 ≠ 0) :
    faultOr (addressFault a) s t = .next { s with status := .fault (.memoryAlignment a) } := by
  rw [addressFault, if_pos h]
  rfl

theorem faultOr_addressFault_of_beyond {a : Word} (s t : State) (haligned : a.toNat % 4 = 0) (hbeyond : 1020 < a.toNat) :
    faultOr (addressFault a) s t = .next { s with status := .fault (.memoryBounds a) } := by
  rw [addressFault, if_neg (not_not_intro haligned), if_pos hbeyond]
  rfl

theorem faultOr_addressFault_of_valid {a : Word} (s t : State) (haligned : a.toNat % 4 = 0) (hbound : a.toNat ≤ 1020) :
    faultOr (addressFault a) s t = .next t := by
  rw [addressFault, if_neg (not_not_intro haligned), if_neg (Nat.not_lt.mpr hbound)]
  rfl

/-! ### The instructions on registers they name -/

theorem exec_movlRegReg_of_names {r1 r2 : RegField} {a b : Fin 17} (s : State) (ha : Names r1 a) (hb : Names r2 b) :
    exec (.movlRegReg r1 r2) s = .next (s.writeX b (s.readX a)).advance := by
  rw [exec_eq_effect_of_names_names rfl rfl ha hb, effect, namedRegister_of_names ha, namedRegister_of_names hb]

theorem exec_movlDerefReg_of_names {r1 r2 : RegField} {a b : Fin 17} (imm : Imm16) (s : State) (ha : Names r1 a)
    (hb : Names r2 b) :
    exec (.movlDerefReg r1 r2 imm) s =
      faultOr (addressFault (effectiveAddress (s.readX a) imm)) s
        (s.writeX b (wordAt s.mem (effectiveAddress (s.readX a) imm).toNat)).advance := by
  rw [exec_eq_of_dataAddress rfl (fields_lt_of_names_names rfl ha hb), effect, fieldValue_of_names s ha,
    namedRegister_of_names hb]

theorem exec_movlRegDeref_of_names {r1 r2 : RegField} {a b : Fin 17} (imm : Imm16) (s : State) (ha : Names r1 a)
    (hb : Names r2 b) :
    exec (.movlRegDeref r1 r2 imm) s =
      faultOr (addressFault (effectiveAddress (s.readX b) imm)) s
        { s with mem := s.mem.writeWord (effectiveAddress (s.readX b) imm).toNat (s.readX a) }.advance := by
  rw [exec_eq_of_dataAddress rfl (fields_lt_of_names_names rfl ha hb), effect, fieldValue_of_names s hb,
    namedRegister_of_names ha]

theorem exec_movlImmReg_of_names {r1 : RegField} {a : Fin 17} (imm : Imm16) (s : State) (ha : Names r1 a) :
    exec (.movlImmReg r1 imm) s = .next (s.writeX a (zext32 imm)).advance := by
  rw [exec_eq_effect_of_names rfl rfl ha, effect, namedRegister_of_names ha]

/-! ### The claims -/

/-- Settles O11: the value is read before the write, so also one register in both fields keeps it. -/
theorem movlRegRegCopies : Obligations.MovlRegRegCopies := by
  unfold Obligations.MovlRegRegCopies
  intro r1 r2 bit16 imm s
  refine ⟨decode_wordOf 5 r1 r2 bit16 imm, fun a b ha hb => ?effect, fun hr1 => ?fault1, fun hr1 hr2 => ?fault2⟩
  case effect =>
    rw [exec_movlRegReg_of_names s ha hb]
    exact next_writeX_advance s b rfl
  case fault1 => exact exec_of_first_field_ge s rfl hr1
  case fault2 => exact exec_of_second_field_ge s rfl hr1 hr2

/-- Settles O12: the number `addr` is that of the effective address, whose three cases decide the outcome. -/
theorem movlDerefRegLoadsWord : Obligations.MovlDerefRegLoadsWord := by
  unfold Obligations.MovlDerefRegLoadsWord
  intro r1 r2 bit16 imm s
  refine ⟨decode_wordOf 6 r1 r2 bit16 imm, fun a b addr ha hb haddr => ?access, fun hr1 => ?fault1,
    fun hr1 hr2 => ?fault2⟩
  case access =>
    obtain rfl : addr = (effectiveAddress (s.readX a) imm).toNat := haddr.trans (toNat_effectiveAddress _ _).symm
    rw [exec_movlDerefReg_of_names imm s ha hb, BitVec.ofNat_toNat, BitVec.setWidth_eq]
    refine ⟨fun haligned hbound => ?valid, faultOr_addressFault_of_misaligned s _, faultOr_addressFault_of_beyond s _⟩
    case valid =>
      rw [faultOr_addressFault_of_valid s _ haligned hbound]
      exact next_writeX_advance s b rfl
  case fault1 => exact exec_of_first_field_ge s rfl hr1
  case fault2 => exact exec_of_second_field_ge s rfl hr1 hr2

/-- Settles O13: as the load, with the base in the second field; the memory left is the one `writeWord` gives. -/
theorem movlRegDerefStoresWord : Obligations.MovlRegDerefStoresWord := by
  unfold Obligations.MovlRegDerefStoresWord
  intro r1 r2 bit16 imm s
  refine ⟨decode_wordOf 7 r1 r2 bit16 imm, fun a b addr ha hb haddr => ?access, fun hr1 => ?fault1,
    fun hr1 hr2 => ?fault2⟩
  case access =>
    obtain rfl : addr = (effectiveAddress (s.readX b) imm).toNat := haddr.trans (toNat_effectiveAddress _ _).symm
    rw [exec_movlRegDeref_of_names imm s ha hb, BitVec.ofNat_toNat, BitVec.setWidth_eq]
    refine ⟨fun haligned hbound => ?valid, faultOr_addressFault_of_misaligned s _, faultOr_addressFault_of_beyond s _⟩
    case valid =>
      exact ⟨_, faultOr_addressFault_of_valid s _ haligned hbound, storesWord_writeWord s.mem _ (s.readX a)⟩
  case fault1 => exact exec_of_first_field_ge s rfl hr1
  case fault2 => exact exec_of_second_field_ge s rfl hr1 hr2

/-- Settles O14: widening with zeros keeps the number. -/
theorem movlImmRegLoadsConstant : Obligations.MovlImmRegLoadsConstant := by
  unfold Obligations.MovlImmRegLoadsConstant
  intro r1 r2 bit16 imm s
  refine ⟨decode_wordOf 8 r1 r2 bit16 imm, fun a ha => ?effect, fun hr1 => ?fault⟩
  case effect =>
    rw [exec_movlImmReg_of_names imm s ha]
    exact next_writeX_advance s a (BitVec.ofNat_toNat 32 imm).symm
  case fault => exact exec_of_first_field_ge s rfl hr1

end Sys2Proof.Machine
end

section
/-! The comparison and the branches (43_compare_and_branch.md): the flags word `cmpl` leaves, the target of a taken
branch, and what each condition asks of the flags. -/

namespace Sys2Proof.Machine

/-! ### The flags of a comparison (43_compare_and_branch.md R90) -/

/-- A mask under its flag is the product of their numbers, the term of R90's sum. -/
theorem maskIf_eq_ofNat (flag : Bool) (mask : Word) : maskIf flag mask = BitVec.ofNat 32 (flag.toNat * mask.toNat) := by
  cases flag with
  | false => rw [Bool.toNat_false, Nat.zero_mul]; rfl
  | true => rw [Bool.toNat_true, Nat.one_mul, BitVec.ofNat_toNat, BitVec.setWidth_eq]; rfl

/-- The sum of words that `cmpl` computes is the sum of numbers R90 writes. -/
theorem maskIf_sum (cf zf sf of : Bool) :
    maskIf cf carryMask + maskIf zf zeroMask + maskIf sf signMask + maskIf of overflowMask =
      BitVec.ofNat 32 (cf.toNat * 0x001 + zf.toNat * 0x040 + sf.toNat * 0x080 + of.toNat * 0x800) := by
  rw [BitVec.ofNat_add, BitVec.ofNat_add, BitVec.ofNat_add, maskIf_eq_ofNat, maskIf_eq_ofNat, maskIf_eq_ofNat,
    maskIf_eq_ofNat]
  rfl

/-- The low half of a 64-bit pattern is the 32-bit pattern of the same integer. -/
theorem setWidth_ofInt_64 (n : Int) : (BitVec.ofInt 64 n).setWidth 32 = BitVec.ofInt 32 n := by
  apply BitVec.eq_of_toNat_eq
  rw [BitVec.toNat_setWidth, BitVec.toNat_ofInt, BitVec.toNat_ofInt]
  omega

theorem ofInt_toInt_sub_toInt (v w : Word) : BitVec.ofInt 32 (v.toInt - w.toInt) = v - w := by
  rw [Int.sub_eq_add_neg, BitVec.ofInt_add, BitVec.ofInt_neg, BitVec.ofInt_toInt, BitVec.ofInt_toInt,
    ← BitVec.sub_eq_add_neg]

/-- The two forms of SF (R90): bit 31 of the exact difference lies in the half that the wrapped difference keeps. -/
theorem getLsbD_31_compareValue (a b : Word) : (BitVec.ofInt 64 (compareValue a b)).getLsbD 31 = (b - a).msb :=
  calc (BitVec.ofInt 64 (compareValue a b)).getLsbD 31
    _ = ((BitVec.ofInt 64 (compareValue a b)).setWidth 32).getLsbD 31 := by
      rw [BitVec.getLsbD_setWidth, decide_eq_true (by decide : 31 < 32), Bool.true_and]
    _ = (b - a).getLsbD 31 := by rw [setWidth_ofInt_64, compareValue, ofInt_toInt_sub_toInt]
    _ = (b - a).msb := (BitVec.msb_eq_getLsbD_last (b - a)).symm

theorem exec_cmpl_of_names {r1 r2 : RegField} {a b : Fin 17} (s : State) (ha : Names r1 a) (hb : Names r2 b) :
    exec (.cmpl r1 r2) s = .next (s.writeX Config.flags (compareFlags (s.readX a) (s.readX b))).advance := by
  rw [exec_eq_effect_of_names_names rfl rfl ha hb, effect, namedRegister_of_names ha, namedRegister_of_names hb]

/-! ### The branch target (43_compare_and_branch.md R91) -/

/-- Adding the sign-extended displacement is adding its integer and wrapping. -/
theorem branchTarget_eq_ofInt (pc : Pc) (imm : Imm16) :
    branchTarget pc imm = BitVec.ofInt 32 (pc.toNat + 4 + imm.toInt) := by
  rw [BitVec.ofInt_add, BitVec.ofInt_add, BitVec.ofInt_natCast, BitVec.ofNat_toNat, BitVec.setWidth_eq]
  rfl

/-- Taken or not, a branch changes the pc alone. -/
theorem branchIf_eq {taken : Bool} {p : Prop} [Decidable p] (h : taken = true ↔ p) (imm : Imm16) (s : State) :
    branchIf taken imm s =
      .next { s with pc := if p then BitVec.ofInt 32 (s.pc.toNat + 4 + imm.toInt) else s.pc + 4 } := by
  by_cases hp : p
  · rw [branchIf, if_pos (h.mpr hp), if_pos hp, branchTarget_eq_ofInt]
    rfl
  · rw [branchIf, if_neg (mt h.mp hp), if_neg hp]
    rfl

/-- No condition is asked: the branch is taken (43_compare_and_branch.md R97). -/
theorem exec_jmp (imm : Imm16) (s : State) : exec (.jmp imm) s = .next (s.goto (branchTarget s.pc imm)) := rfl

/-! ### The conditions (43_compare_and_branch.md R92 to R96) -/

theorem condEqual_iff (flags : Word) : condEqual flags = true ↔ zeroFlag flags = true := Iff.rfl

theorem condLess_iff (flags : Word) : condLess flags = true ↔ overflowFlag flags ≠ signFlag flags := bne_iff_ne

theorem condLessEqual_iff (flags : Word) :
    condLessEqual flags = true ↔ overflowFlag flags ≠ signFlag flags ∨ zeroFlag flags = true := by
  rw [condLessEqual, Bool.or_eq_true, ← condLess, condLess_iff]

/-- `jge` is the complement of `jl`. -/
theorem condGreaterEqual_iff (flags : Word) :
    condGreaterEqual flags = true ↔ overflowFlag flags = signFlag flags := by
  rw [condGreaterEqual, Bool.not_eq_true', ← condLess, ← Bool.not_eq_true, condLess_iff, not_not]

theorem condBelowEqual_iff (flags : Word) :
    condBelowEqual flags = true ↔ zeroFlag flags = true ∨ carryFlag flags = true := by
  rw [condBelowEqual, Bool.or_eq_true]

/-! ### The claims -/

/-- Settles O15: the flags word is the sum of its masks, and SF has its two forms by `getLsbD_31_compareValue`. -/
theorem cmplSetsFlags : Obligations.CmplSetsFlags := by
  unfold Obligations.CmplSetsFlags
  intro r1 r2 bit16 imm s
  refine ⟨decode_wordOf 9 r1 r2 bit16 imm, fun a b cmp cf zf sf of ha hb hcmp hcf hzf hsf hof => ?effect,
    fun hr1 => ?fault1, fun hr1 hr2 => ?fault2⟩
  case effect =>
    subst hcmp hcf hzf hsf hof
    rw [exec_cmpl_of_names s ha hb]
    exact ⟨next_writeX_advance s Config.flags (maskIf_sum _ _ _ _), getLsbD_31_compareValue (s.readX a) (s.readX b)⟩
  case fault1 => exact exec_of_first_field_ge s rfl hr1
  case fault2 => exact exec_of_second_field_ge s rfl hr1 hr2

/-- Settles O16: each branch is `branchIf` of its condition, and each condition is its formula over the four flags. -/
theorem conditionalBranchesTestFlags : Obligations.ConditionalBranchesTestFlags := by
  unfold Obligations.ConditionalBranchesTestFlags
  intro r1 r2 bit16 imm s target cf zf sf of htarget hcf hzf hsf hof
  subst htarget hcf hzf hsf hof
  refine ⟨decode_wordOf 10 r1 r2 bit16 imm, decode_wordOf 11 r1 r2 bit16 imm, decode_wordOf 12 r1 r2 bit16 imm,
    decode_wordOf 13 r1 r2 bit16 imm, decode_wordOf 14 r1 r2 bit16 imm, ?je, ?jl, ?jle, ?jge, ?jbe⟩
  case je => exact branchIf_eq (condEqual_iff s.flags) imm s
  case jl => exact branchIf_eq (condLess_iff s.flags) imm s
  case jle => exact branchIf_eq (condLessEqual_iff s.flags) imm s
  case jge => exact branchIf_eq (condGreaterEqual_iff s.flags) imm s
  case jbe => exact branchIf_eq (condBelowEqual_iff s.flags) imm s

/-- Settles O17: the target of the branch is that of R91, whatever the flags. -/
theorem jmpAlwaysBranches : Obligations.JmpAlwaysBranches := by
  unfold Obligations.JmpAlwaysBranches
  intro r1 r2 bit16 imm s
  refine ⟨decode_wordOf 15 r1 r2 bit16 imm, ?branch⟩
  case branch => rw [exec_jmp, State.goto, branchTarget_eq_ofInt]

end Sys2Proof.Machine
end

section
/-! Call and return (44_call_and_stack.md): both are an access at one stack address, and `ret` first compares the stack
pointer with STACK_TOP. -/

namespace Sys2Proof.Machine

/-! ### The two instructions by their stack address -/

/-- The slot is the one below the stack pointer (R100). -/
theorem exec_call (imm : Imm16) (s : State) :
    exec (.call imm) s =
      faultOr (addressFault (s.sp - 4)) s
        (({ s with mem := s.mem.writeWord (s.sp - 4).toNat (followingPc s.pc) }.writeX Config.sp (s.sp - 4)).goto
          (branchTarget s.pc imm)) := by
  rw [exec_eq_of_dataAddress rfl (List.forall_mem_nil _), effect, wordOfPc_eq]

theorem dataAddress_ret_of_stackTop {s : State} (htop : s.sp = Config.stackTop) : dataAddress .ret s = none := if_pos htop

theorem dataAddress_ret_of_ne {s : State} (htop : s.sp ≠ Config.stackTop) : dataAddress .ret s = some s.sp := if_neg htop

/-- The empty stack is not read, so the bounds check does not see the address STACK_TOP (R101). -/
theorem exec_ret_of_stackTop {s : State} (htop : s.sp = Config.stackTop) : exec .ret s = .next (s.halt .haltRet) := by
  rw [exec_eq_effect_of_fields_lt (dataAddress_ret_of_stackTop htop) (List.forall_mem_nil _), effect, if_pos htop]

theorem exec_ret_of_ne {s : State} (htop : s.sp ≠ Config.stackTop) :
    exec .ret s =
      faultOr (addressFault s.sp) s ((s.writeX Config.sp (s.sp + 4)).goto (wordAt s.mem s.sp.toNat)) := by
  rw [exec_eq_of_dataAddress (dataAddress_ret_of_ne htop) (List.forall_mem_nil _), effect, if_neg htop, pcOfWord_eq]

/-! ### After the halt -/

/-- Only a running state steps (40_fetch_execute_cycle.md R70). -/
theorem step_ne_next_of_terminal {s : State} (hterminal : s.status ≠ .running) (t : State) : step s ≠ .next t := by
  intro hstep
  obtain ⟨hrunning, _, _⟩ := step_next_cases hstep
  exact hterminal hrunning

/-! ### The claims -/

/-- Settles O18: `call` is a store at `sp - 4`, whose address check decides among the three outcomes. -/
theorem callPushesReturnAddress : Obligations.CallPushesReturnAddress := by
  unfold Obligations.CallPushesReturnAddress
  intro r1 r2 bit16 imm s nsp hnsp
  obtain rfl : nsp = s.sp - 4 := hnsp
  rw [exec_call]
  refine ⟨decode_wordOf 16 r1 r2 bit16 imm, fun haligned hbound => ?valid, faultOr_addressFault_of_misaligned s _,
    faultOr_addressFault_of_beyond s _⟩
  case valid =>
    rw [faultOr_addressFault_of_valid s _ haligned hbound, branchTarget_eq_ofInt]
    exact ⟨_, rfl, storesWord_writeWord s.mem _ (followingPc s.pc)⟩

/-- Settles O19: the check against STACK_TOP comes first; past it, `ret` is a load at `sp` with its three outcomes. -/
theorem retHaltsOrPops : Obligations.RetHaltsOrPops := by
  unfold Obligations.RetHaltsOrPops
  intro r1 r2 bit16 imm s sp hsp
  obtain rfl : sp = s.sp := hsp
  refine ⟨decode_wordOf 17 r1 r2 bit16 imm, fun htop => ?halt, fun htop haligned hbound => ?pop,
    fun htop hmisaligned => ?misaligned, fun htop haligned hbeyond => ?beyond⟩
  case halt =>
    have hterminal : (s.halt .haltRet).status ≠ .running := by rw [State.halt_status]; decide
    exact ⟨exec_ret_of_stackTop htop, rfl, step_ne_next_of_terminal hterminal⟩
  case pop =>
    rw [exec_ret_of_ne htop, faultOr_addressFault_of_valid s _ haligned hbound]
    rfl
  case misaligned => rw [exec_ret_of_ne htop, faultOr_addressFault_of_misaligned s _ hmisaligned]
  case beyond => rw [exec_ret_of_ne htop, faultOr_addressFault_of_beyond s _ haligned hbeyond]

end Sys2Proof.Machine
end

section
/-! The unrecognized opcodes (46_unrecognized.md R108): the ten instructions have one meaning, and every word from
0xB0000000 up selects one of them, because the default map assigns no value above 21. -/

namespace Sys2Proof.Machine

/-! ### The ten instructions -/

theorem noOperation_eq (s : State) : noOperation s = .next { s with pc := s.pc + 4 } := rfl

/-- "The ten values behave alike" (R108). -/
theorem exec_unrecognizedInstr (k : Nat) (s : State) : exec (unrecognizedInstr k) s = noOperation s := by
  unfold unrecognizedInstr
  split <;> rfl

/-- The constructors by name are those the decoder selects by index. -/
theorem map_unrecognizedInstr_range :
    (List.range 10).map unrecognizedInstr =
      [.unrecognized22, .unrecognized23, .unrecognized24, .unrecognized25, .unrecognized26, .unrecognized27,
        .unrecognized28, .unrecognized29, .unrecognized30, .unrecognized31] := rfl

/-! ### The words that select them -/

theorem opcodeMap_lt (m : Mnemonic) : (Config.opcodeMap m).toNat < 22 := by cases m <;> decide

theorem mnemonicOf_eq_none_of_ge {v : OpcodeField} (h : 22 ≤ v.toNat) : mnemonicOf v = none := by
  refine List.find?_eq_none.mpr fun m _ hassigned => ?_
  have hv : Config.opcodeMap m = v := eq_of_beq hassigned
  exact Nat.not_lt.mpr h (hv ▸ opcodeMap_lt m)

theorem decode_of_mnemonicOf_none {w : Word} (h : mnemonicOf (decodeRecord w).opcode = none) :
    decode w = unrecognizedInstr (unassignedOpcodes.idxOf (decodeRecord w).opcode) := by
  rw [decode, selectInstr, h]

/-- 0xB0000000 is opcode value 22 above 27 zero bits. -/
theorem opcode_ge_of_word_ge {w : Word} (h : 0xB0000000 ≤ w.toNat) : 22 ≤ (decodeRecord w).opcode.toNat := by
  rw [toNat_decodeRecord_opcode]
  omega

/-! ### The claim -/

/-- Settles O24: the word's opcode value has no mnemonic, so the word decodes to one of the ten instructions, and each of
them is the no-operation. -/
theorem unrecognizedOpcodesAreNoOps : Obligations.UnrecognizedOpcodesAreNoOps := by
  unfold Obligations.UnrecognizedOpcodesAreNoOps
  refine fun s => ⟨fun w hw => ?word, fun i hi => ?constructors⟩
  case word =>
    have hunassigned : mnemonicOf (decodeRecord w).opcode = none := mnemonicOf_eq_none_of_ge (opcode_ge_of_word_ge hw)
    rw [decode_of_mnemonicOf_none hunassigned, exec_unrecognizedInstr, noOperation_eq]
  case constructors =>
    rw [← map_unrecognizedInstr_range] at hi
    obtain ⟨k, _, rfl⟩ := List.mem_map.mp hi
    rw [exec_unrecognizedInstr, noOperation_eq]

end Sys2Proof.Machine
end

section
/-! A fault is precise and terminal (60_exceptions.md R116): a step either raises the fault `stepFault` names, in the state
it began with, or it ends in a status that is no fault. -/

namespace Sys2Proof.Machine

/-! ### The status an instruction without a fault leaves -/

/-- A branch moves the pc alone, taken or not. -/
theorem status_ite_goto_advance (taken : Bool) (s : State) (target : Pc) :
    (if taken then s.goto target else s.advance).status = s.status := by
  cases taken <;> rfl

/-- `ret` alone touches the status (44_call_and_stack.md R101). -/
theorem effect_status_of_ne_ret {i : Instr} (hret : i ≠ .ret) (s : State) : (effect i s).status = s.status := by
  cases i with
  | ret => exact absurd rfl hret
  | je _ => exact status_ite_goto_advance _ s _
  | jl _ => exact status_ite_goto_advance _ s _
  | jle _ => exact status_ite_goto_advance _ s _
  | jge _ => exact status_ite_goto_advance _ s _
  | jbe _ => exact status_ite_goto_advance _ s _
  | readr _ => rw [effect]; cases s.nextInput <;> rfl
  | _ => rfl

theorem effect_ret_status (s : State) :
    (effect .ret s).status = if s.sp = Config.stackTop then .haltRet else s.status := by
  rw [effect]
  split <;> rfl

theorem effect_isFault_of_running {s : State} (hrunning : s.status = .running) (i : Instr) :
    (effect i s).status.isFault = false := by
  by_cases hret : i = .ret
  · subst hret
    rw [effect_ret_status, hrunning]
    split <;> rfl
  · rw [effect_status_of_ne_ret hret, hrunning]
    rfl

/-! ### What a step can do -/

theorem stepFault_of_endOfStream {s : State} (h : fetch s = .endOfStream) : stepFault s = none := by
  rw [stepFault, h]

theorem stepFault_of_badPc {s : State} (h : fetch s = .badPc) : stepFault s = some (.fetch s.pc) := by
  rw [stepFault, h]

theorem stepFault_of_word {s : State} {w : Word} (h : fetch s = .word w) : stepFault s = instrFault (decode w) s := by
  rw [stepFault, h]

/-- A next state is the old one with the fault of R115 raised, or, where that order finds none, one without a fault. -/
theorem step_next_raise_or_not_isFault {s t : State} (h : step s = .next t) :
    (∃ c, stepFault s = some c ∧ t = s.raise c) ∨ (stepFault s = none ∧ t.status.isFault = false) := by
  obtain ⟨hrunning, _, hnext⟩ := step_next_cases h
  rcases fetchAndExecute_cases s with ⟨hfetch, hend⟩ | ⟨hfetch, hraise⟩ | ⟨w, hfetch, hexec⟩
  case inl =>
    cases hend.symm.trans hnext
    exact .inr ⟨stepFault_of_endOfStream hfetch, rfl⟩
  case inr.inl =>
    cases hraise.symm.trans hnext
    exact .inl ⟨.fetch s.pc, stepFault_of_badPc hfetch, rfl⟩
  case inr.inr =>
    rw [stepFault_of_word hfetch]
    refine (exec_next (hexec.symm.trans hnext)).imp_right fun ⟨hnone, heffect⟩ => ⟨hnone, ?_⟩
    rw [heffect, effect_isFault_of_running hrunning]

/-! ### The claim -/

/-- Settles O39: a next state whose status is a fault is the old state with a fault raised, which changes the status alone;
and no step leaves a status other than RUNNING. -/
theorem faultChangesOnlyStatus : Obligations.FaultChangesOnlyStatus := by
  unfold Obligations.FaultChangesOnlyStatus
  intro s t c hstep hfault
  have hterminal : t.status ≠ .running := by rw [hfault]; exact Status.noConfusion
  refine ⟨?onlyStatus, step_ne_next_of_terminal hterminal⟩
  case onlyStatus =>
    rcases step_next_raise_or_not_isFault hstep with ⟨raised, _, rfl⟩ | ⟨_, hnotFault⟩
    · obtain rfl : raised = c := Status.fault.inj hfault
      rfl
    · rw [hfault] at hnotFault
      cases hnotFault

end Sys2Proof.Machine
end

section
/-! The state reset leaves (70_reset_and_hazards.md R130): what its register file and its memory read, and the fields a run
starts with, which the host's words and input leave alone. -/

namespace Sys2Proof.Machine

/-! ### What reads return after reset -/

/-- The register file all zero, before reset sets the stack pointer. -/
def clearedRegisters : State := { State.reset with x := Vector.replicate 17 0 }

theorem readX_clearedRegisters (j : Fin 17) : clearedRegisters.readX j = 0 := Vector.get_replicate 17 0 j

/-- Reset is one register write, that of the stack pointer, to a cleared file. -/
theorem reset_eq_writeX : State.reset = clearedRegisters.writeX Config.sp Config.stackTop := rfl

theorem readX_reset (j : Fin 17) : State.reset.readX j = if j = Config.sp then Config.stackTop else 0 := by
  rw [reset_eq_writeX, State.readX_writeX, readX_clearedRegisters]

/-- No cell is listed, so every address reads as an unlisted one. -/
theorem readByte_reset (a : Nat) : State.reset.mem.readByte a = Config.resetByte := rfl

/-! ### The start of a run -/

@[simp] theorem State.readX_start (imem input : List Word) (j : Fin 17) :
    (State.start imem input).readX j = State.reset.readX j := rfl
@[simp] theorem State.start_mem (imem input : List Word) : (State.start imem input).mem = State.reset.mem := rfl
@[simp] theorem State.start_pc (imem input : List Word) : (State.start imem input).pc = 0 := rfl
@[simp] theorem State.start_status (imem input : List Word) : (State.start imem input).status = .running := rfl
@[simp] theorem State.start_out (imem input : List Word) : (State.start imem input).out = [] := rfl
@[simp] theorem State.start_inpos (imem input : List Word) : (State.start imem input).inpos = 0 := rfl

/-- Reset alone is a start for which the host supplies nothing. -/
theorem State.start_nil_nil : State.start [] [] = State.reset := rfl

theorem exists_eq_start {s : State} (h : s = State.reset ∨ ∃ imem input : List Word, s = State.start imem input) :
    ∃ imem input : List Word, s = State.start imem input := by
  rcases h with rfl | hstart
  · exact ⟨[], [], State.start_nil_nil.symm⟩
  · exact hstart

/-! ### The claim -/

/-- Settles O27: both kinds of state are starts of a run, and a start keeps what reset put in every field but the host's. -/
theorem resetLeavesSpecifiedState : Obligations.ResetLeavesSpecifiedState := by
  unfold Obligations.ResetLeavesSpecifiedState
  intro s hs
  obtain ⟨imem, input, rfl⟩ := exists_eq_start hs
  refine ⟨fun j => ?registers, fun a _ => ?memory, State.start_pc imem input, State.start_status imem input,
    State.start_out imem input, State.start_inpos imem input⟩
  case registers => exact (State.readX_start imem input j).trans (readX_reset j)
  case memory =>
    rw [State.start_mem]
    exact readByte_reset a

end Sys2Proof.Machine
end

section
/-! The encoding in both directions (30_encoding.md R55 to R60). The record of an instruction selects it back, so decoding
undoes encoding; and the record of what a word selects is the word's own record under the mask of the used bits. -/

namespace Sys2Proof.Machine

/-! ### From the instruction to the word and back -/

theorem selectInstr_toRecord (i : Instr) : selectInstr i.toRecord = i :=
  match i with
  | .subl r1 imm => Laws.FieldsSelectBack.subl r1 imm
  | .addlRegReg r1 r2 => Laws.FieldsSelectBack.addlRegReg r1 r2
  | .addlImmReg r1 imm => Laws.FieldsSelectBack.addlImmReg r1 imm
  | .imull r1 r2 => Laws.FieldsSelectBack.imull r1 r2
  | .shrl r1 => Laws.FieldsSelectBack.shrl r1
  | .movlRegReg r1 r2 => Laws.FieldsSelectBack.movlRegReg r1 r2
  | .movlDerefReg r1 r2 imm => Laws.FieldsSelectBack.movlDerefReg r1 r2 imm
  | .movlRegDeref r1 r2 imm => Laws.FieldsSelectBack.movlRegDeref r1 r2 imm
  | .movlImmReg r1 imm => Laws.FieldsSelectBack.movlImmReg r1 imm
  | .cmpl r1 r2 => Laws.FieldsSelectBack.cmpl r1 r2
  | .je imm => Laws.FieldsSelectBack.je imm
  | .jl imm => Laws.FieldsSelectBack.jl imm
  | .jle imm => Laws.FieldsSelectBack.jle imm
  | .jge imm => Laws.FieldsSelectBack.jge imm
  | .jbe imm => Laws.FieldsSelectBack.jbe imm
  | .jmp imm => Laws.FieldsSelectBack.jmp imm
  | .call imm => Laws.FieldsSelectBack.call imm
  | .ret => Laws.FieldsSelectBack.ret
  | .pushl r1 => Laws.FieldsSelectBack.pushl r1
  | .popl r1 => Laws.FieldsSelectBack.popl r1
  | .printr r1 => Laws.FieldsSelectBack.printr r1
  | .readr r1 => Laws.FieldsSelectBack.readr r1
  | .unrecognized22 => Laws.FieldsSelectBack.unrecognized22
  | .unrecognized23 => Laws.FieldsSelectBack.unrecognized23
  | .unrecognized24 => Laws.FieldsSelectBack.unrecognized24
  | .unrecognized25 => Laws.FieldsSelectBack.unrecognized25
  | .unrecognized26 => Laws.FieldsSelectBack.unrecognized26
  | .unrecognized27 => Laws.FieldsSelectBack.unrecognized27
  | .unrecognized28 => Laws.FieldsSelectBack.unrecognized28
  | .unrecognized29 => Laws.FieldsSelectBack.unrecognized29
  | .unrecognized30 => Laws.FieldsSelectBack.unrecognized30
  | .unrecognized31 => Laws.FieldsSelectBack.unrecognized31

theorem decode_encode (i : Instr) : decode (encode i) = i := by
  rw [decode, encode, decodeRecord_encodeRecord, selectInstr_toRecord]

/-! ### From the word to the instruction and back -/

/-- The fields of a record under a mask that is itself cut into the four fields. -/
def maskRecord (d mask : Record) : Record :=
  ⟨d.opcode &&& mask.opcode, d.r1 &&& mask.r1, d.r2 &&& mask.r2, d.imm &&& mask.imm⟩

/-- Masking a word masks each of its fields. -/
theorem decodeRecord_and (w mask : Word) :
    decodeRecord (w &&& mask) = maskRecord (decodeRecord w) (decodeRecord mask) := by
  simp only [decodeRecord, maskRecord, BitVec.extractLsb'_and]

/-- Encoding a word's record drops bit 16 and nothing else. -/
theorem encodeRecord_decodeRecord (w : Word) : encodeRecord (decodeRecord w) = w &&& 0xFFFEFFFF := by
  rw [encodeRecord_eq_append]
  apply BitVec.eq_of_getLsbD_eq
  intro i hi
  simp only [decodeRecord, BitVec.getLsbD_append, BitVec.getLsbD_extractLsb', BitVec.getLsbD_and]
  interval_cases i <;> simp

/-- Bit 16 is used by no opcode value (30_encoding.md R51). -/
theorem usedBits_and_not_bit16 (opcode : Nat) : usedBits opcode &&& 0xFFFEFFFF = usedBits opcode := by
  unfold usedBits
  split <;> rfl

/-- Every opcode value uses the whole opcode field. -/
theorem opcode_decodeRecord_usedBits (opcode : Nat) : (decodeRecord (usedBits opcode)).opcode = BitVec.allOnes 5 := by
  unfold usedBits
  split <;> rfl

/-- The instruction an opcode value selects keeps the fields of the used bits, and its record holds 0 in the others. -/
theorem toRecord_selectInstr (d : Record) :
    (selectInstr d).toRecord = maskRecord d (decodeRecord (usedBits d.opcode.toNat)) := by
  obtain ⟨⟨opcode⟩, r1, r2, imm⟩ := d
  have hfield (f : RegField) : f &&& 31#5 = f := BitVec.and_allOnes
  have himm : imm &&& 65535#16 = imm := BitVec.and_allOnes
  rw [selectInstr_eq_table]
  fin_cases opcode <;>
    simp [Instr.toRecord, Config.opcodeMap, unassignedOpcode, unassignedOpcodes_eq, maskRecord, decodeRecord, usedBits,
      hfield, himm]

theorem encode_decode (w : Word) : encode (decode w) = w &&& usedBits (w.toNat / 2 ^ 27) :=
  calc encode (decode w)
    _ = encodeRecord (maskRecord (decodeRecord w) (decodeRecord (usedBits (w.toNat / 2 ^ 27)))) := by
      rw [encode, decode, toRecord_selectInstr, toNat_decodeRecord_opcode]
    _ = w &&& usedBits (w.toNat / 2 ^ 27) &&& 0xFFFEFFFF := by
      rw [← decodeRecord_and, encodeRecord_decodeRecord]
    _ = w &&& usedBits (w.toNat / 2 ^ 27) := by rw [BitVec.and_assoc, usedBits_and_not_bit16]

/-- The used bits of any opcode value show the opcode of the word. -/
theorem opcode_decodeRecord_and_usedBits (w : Word) (opcode : Nat) :
    (decodeRecord (w &&& usedBits opcode)).opcode = (decodeRecord w).opcode := by
  rw [decodeRecord_and, maskRecord, opcode_decodeRecord_usedBits, BitVec.and_allOnes]

/-- Words that agree on the used bits agree on the opcode, hence have the same used bits and one canonical word. -/
theorem decode_eq_of_and_usedBits_eq {w w' : Word}
    (h : w &&& usedBits (w.toNat / 2 ^ 27) = w' &&& usedBits (w.toNat / 2 ^ 27)) : decode w = decode w' := by
  have hopcode : w.toNat / 2 ^ 27 = w'.toNat / 2 ^ 27 := by
    rw [← toNat_decodeRecord_opcode, ← toNat_decodeRecord_opcode, ← opcode_decodeRecord_and_usedBits w, h,
      opcode_decodeRecord_and_usedBits]
  have hword : encode (decode w) = encode (decode w') := by rw [encode_decode, h, encode_decode, hopcode]
  rw [← decode_encode (decode w), hword, decode_encode]

/-! ### The opcode map (decision D1) -/

theorem mem_mnemonics (m : Mnemonic) : m ∈ Mnemonic.all := by cases m <;> decide

theorem opcodeMap_of_mnemonicOf {v : OpcodeField} {m : Mnemonic} (h : mnemonicOf v = some m) :
    Config.opcodeMap m = v := by
  have hfound : (Config.opcodeMap m == v) = true := List.find?_some (p := fun n => Config.opcodeMap n == v) h
  exact eq_of_beq hfound

/-- No other mnemonic has the value, so the search ends at this one. -/
theorem mnemonicOf_opcodeMap (m : Mnemonic) : mnemonicOf (Config.opcodeMap m) = some m := by
  cases h : mnemonicOf (Config.opcodeMap m) with
  | none => exact absurd (beq_self_eq_true _) (List.find?_eq_none.mp h m (mem_mnemonics m))
  | some n => rw [opcodeMap_injective n m (opcodeMap_of_mnemonicOf h)]

theorem exec_of_mnemonicOf_none {w : Word} (h : mnemonicOf (decodeRecord w).opcode = none) (s : State) :
    exec (decode w) s = .next { s with pc := s.pc + 4 } := by
  rw [decode_of_mnemonicOf_none h, exec_unrecognizedInstr, noOperation_eq]

/-! ### The claims -/

/-- Settles O3: the decoder takes apart what the encoder put together, and the record selects its instruction. -/
theorem decodeOfEncodeIsInstruction : Obligations.DecodeOfEncodeIsInstruction := by
  unfold Obligations.DecodeOfEncodeIsInstruction
  exact decode_encode

/-- Settles O4: the record of the decoded instruction is the word's record under the mask of its used bits. -/
theorem encodeOfDecodeClearsIgnoredBits : Obligations.EncodeOfDecodeClearsIgnoredBits := by
  unfold Obligations.EncodeOfDecodeClearsIgnoredBits
  exact encode_decode

/-- Settles O5: the two words have one canonical word, which decodes to the instruction of both. -/
theorem ignoredBitsDoNotMatter : Obligations.IgnoredBitsDoNotMatter := by
  unfold Obligations.IgnoredBitsDoNotMatter
  intro w w' h
  have hdecode : decode w = decode w' := decode_eq_of_and_usedBits_eq h
  exact ⟨hdecode, fun s => by rw [hdecode]⟩

/-- Settles O2: the decoder computes on each of the twelve words. -/
theorem writtenWordsDecode : Obligations.WrittenWordsDecode := by
  unfold Obligations.WrittenWordsDecode
  decide

/-- Settles O58: the map is injective, so a value selects its mnemonic back; where it selects none, the word decodes to an
unrecognized instruction. -/
theorem opcodeMapSelectsOrNoOp : Obligations.OpcodeMapSelectsOrNoOp := by
  unfold Obligations.OpcodeMapSelectsOrNoOp
  exact ⟨mnemonicOf_opcodeMap, fun w s h => exec_of_mnemonicOf_none h s⟩

end Sys2Proof.Machine
end

section
/-! What the effect of an instruction leaves alone (10_state.md R11, R16 to R20; 20_memory.md R31, R37), field by field of
the state. A raised fault changes the status alone, so each frame of `exec` is that of `effect`. -/

namespace Sys2Proof.Machine

/-! ### The registers -/

theorem ne_namedRegister_of_not_names {f : RegField} {j : Fin 17} (hf : f.toNat < 16) (h : ¬ Names f j) :
    j ≠ namedRegister f := by
  rintro rfl
  exact h (names_namedRegister hf)

/-- The W entries of 10_state.md R11 name every register that changes. -/
theorem effect_readX_of_not_writes {i : Instr} {s : State} {j : Fin 17} (hfields : ∀ f ∈ i.usedRegisters, f.toNat < 16)
    (h : ¬ Writes i j) : (effect i s).readX j = s.readX j := by
  cases i with
  | subl r1 _ | addlImmReg r1 _ | shrl r1 | movlImmReg r1 _ =>
    exact s.readX_writeX_of_ne _ (ne_namedRegister_of_not_names (hfields r1 (.head _)) h)
  | addlRegReg _ r2 | imull _ r2 | movlRegReg _ r2 | movlDerefReg _ r2 _ =>
    exact s.readX_writeX_of_ne _ (ne_namedRegister_of_not_names (hfields r2 (.tail _ (.head _))) h)
  | cmpl _ _ => exact s.readX_writeX_of_ne _ h
  | call _ | pushl _ => exact State.readX_writeX_of_ne _ _ h
  | popl r1 =>
    obtain ⟨hsp, hr1⟩ := not_or.mp h
    have hnamed : j ≠ namedRegister r1 := ne_namedRegister_of_not_names (hfields r1 (.head _)) hr1
    exact ((s.writeX (namedRegister r1) _).readX_writeX_of_ne _ hsp).trans (s.readX_writeX_of_ne _ hnamed)
  | ret =>
    rw [effect]
    split
    · rfl
    · exact s.readX_writeX_of_ne _ h
  | readr r1 =>
    rw [effect]
    split
    · exact s.consumeInput.readX_writeX_of_ne _ (ne_namedRegister_of_not_names (hfields r1 (.head _)) h)
    · rfl
  | je _ | jl _ | jle _ | jge _ | jbe _ => rw [effect]; split <;> rfl
  | _ => rfl

/-! ### The memory -/

theorem effect_mem_of_storeAddress_none {i : Instr} {s : State} (h : storeAddress i s = none) :
    (effect i s).mem = s.mem := by
  cases i with
  | movlRegDeref _ _ _ | call _ | pushl _ => cases h
  | je _ | jl _ | jle _ | jge _ | jbe _ | ret | readr _ => rw [effect]; split <;> rfl
  | _ => rfl

theorem exists_effect_mem_eq_writeWord {i : Instr} {s : State} {a : Word} (h : storeAddress i s = some a) :
    ∃ v, (effect i s).mem = s.mem.writeWord a.toNat v := by
  cases i with
  | movlRegDeref _ _ _ | call _ | pushl _ => cases h; exact ⟨_, rfl⟩
  | _ => cases h

theorem effect_readByte {i : Instr} {s : State} {b : Nat}
    (h : ∀ a, storeAddress i s = some a → b < a.toNat ∨ a.toNat + 4 ≤ b) :
    (effect i s).mem.readByte b = s.mem.readByte b := by
  cases ha : storeAddress i s with
  | none => rw [effect_mem_of_storeAddress_none ha]
  | some a =>
    obtain ⟨v, hmem⟩ := exists_effect_mem_eq_writeWord ha
    rw [hmem, Memory.readByte_writeWord_outside _ _ (h a ha)]

/-! ### The instruction store and the channels -/

@[simp] theorem effect_imem (i : Instr) (s : State) : (effect i s).imem = s.imem := by
  cases i with
  | je _ | jl _ | jle _ | jge _ | jbe _ | ret | readr _ => rw [effect]; split <;> rfl
  | _ => rfl

@[simp] theorem effect_input (i : Instr) (s : State) : (effect i s).input = s.input := by
  cases i with
  | je _ | jl _ | jle _ | jge _ | jbe _ | ret | readr _ => rw [effect]; split <;> rfl
  | _ => rfl

theorem effect_out (i : Instr) (s : State) :
    (effect i s).out = s.out ∨
    ∃ r1, i = .printr r1 ∧ (effect i s).out = s.out ++ [s.readX (namedRegister r1)] := by
  cases i with
  | printr r1 => exact .inr ⟨r1, rfl, rfl⟩
  | je _ | jl _ | jle _ | jge _ | jbe _ | ret | readr _ => left; rw [effect]; split <;> rfl
  | _ => exact .inl rfl

theorem nextInput_eq_none_iff {s : State} : s.nextInput = none ↔ s.input.length ≤ s.inpos := List.getElem?_eq_none_iff

theorem inpos_lt_of_nextInput {s : State} {v : Word} (h : s.nextInput = some v) : s.inpos < s.input.length :=
  (List.getElem?_eq_some_iff.mp h).1

theorem effect_readr_of_nextInput {r1 : RegField} {s : State} {v : Word} (h : s.nextInput = some v) :
    effect (.readr r1) s = (s.consumeInput.writeX (namedRegister r1) v).advance := by
  rw [effect, h]

/-- The hold (log 2). -/
theorem effect_readr_of_no_input {r1 : RegField} {s : State} (h : s.nextInput = none) : effect (.readr r1) s = s := by
  rw [effect, h]

theorem effect_inpos (i : Instr) (s : State) :
    (effect i s).inpos = s.inpos ∨
    ∃ r1, i = .readr r1 ∧ s.inpos < s.input.length ∧ (effect i s).inpos = s.inpos + 1 := by
  cases i with
  | readr r1 =>
    cases hv : s.nextInput with
    | none => rw [effect_readr_of_no_input hv]; exact .inl rfl
    | some v => rw [effect_readr_of_nextInput hv]; exact .inr ⟨r1, rfl, inpos_lt_of_nextInput hv, rfl⟩
  | je _ | jl _ | jle _ | jge _ | jbe _ | ret => left; rw [effect]; split <;> rfl
  | _ => exact .inl rfl

/-! ### The program counter -/

/-- The default next pc (40_fetch_execute_cycle.md R73). -/
theorem effect_pc_of_not_redirects {i : Instr} {s : State} (hredirects : redirects i = false)
    (hreadr : ∀ r1, i = .readr r1 → s.inpos < s.input.length) : (effect i s).pc = followingPc s.pc := by
  cases i with
  | je _ | jl _ | jle _ | jge _ | jbe _ | jmp _ | call _ | ret => cases hredirects
  | readr r1 =>
    have hinpos : s.inpos < s.input.length := hreadr r1 rfl
    have hv : s.nextInput = some s.input[s.inpos] := List.getElem?_eq_getElem hinpos
    rw [effect_readr_of_nextInput hv]
    rfl
  | _ => rfl

/-! ### The claims -/

/-- Settles O42: a fault leaves every register, and an effect every one that no W entry names. -/
theorem unwrittenRegistersKeepValue : Obligations.UnwrittenRegistersKeepValue := by
  unfold Obligations.UnwrittenRegistersKeepValue
  intro i s t j hexec hwrites
  rcases exec_next hexec with ⟨c, _, rfl⟩ | ⟨hnone, rfl⟩
  · rfl
  · exact effect_readX_of_not_writes (lt_of_instrFault_none hnone) hwrites

/-- Settles O44: a fault leaves the memory, and an effect every byte outside the word it stores. -/
theorem unstoredBytesKeepValue : Obligations.UnstoredBytesKeepValue := by
  unfold Obligations.UnstoredBytesKeepValue
  intro i s t b hexec houtside
  rcases exec_next hexec with ⟨c, _, rfl⟩ | ⟨_, rfl⟩
  · rfl
  · exact effect_readByte houtside

/-- Settles O45: a fault changes the status alone; an effect is followed through the fields one by one. -/
theorem channelsAndStatusFrame : Obligations.ChannelsAndStatusFrame := by
  unfold Obligations.ChannelsAndStatusFrame
  intro i s t hexec
  rcases exec_next hexec with ⟨c, hfault, rfl⟩ | ⟨hnone, rfl⟩
  · exact ⟨rfl, rfl, .inl rfl, .inl rfl, .inr (.inr ⟨c, hfault, rfl⟩)⟩
  · refine ⟨effect_imem i s, effect_input i s, ?out, effect_inpos i s, ?status⟩
    case out =>
      refine (effect_out i s).imp_right ?_
      rintro ⟨r1, rfl, hout⟩
      have hr1 : r1.toNat < 16 := lt_of_instrFault_none hnone r1 (.head _)
      exact ⟨r1, namedRegister r1, rfl, names_namedRegister hr1, hout⟩
    case status =>
      by_cases hret : i = .ret
      · subst hret
        rw [effect_ret_status]
        split
        · next htop => exact .inr (.inl ⟨rfl, htop, rfl⟩)
        · exact .inl rfl
      · exact .inl (effect_status_of_ne_ret hret s)

/-- Settles O46: with no fault the next state is the effect, which moves the pc by 4 unless it redirects or holds. -/
theorem defaultNextPcIsFollowing : Obligations.DefaultNextPcIsFollowing := by
  unfold Obligations.DefaultNextPcIsFollowing
  intro i s t hexec hredirects hnone hreadr
  rcases exec_next hexec with ⟨c, hfault, _⟩ | ⟨_, rfl⟩
  · rw [hnone] at hfault
    cases hfault
  · exact effect_pc_of_not_redirects hredirects hreadr

end Sys2Proof.Machine
end

section
/-! What the outcome of an instruction and of a step depends on: the registers the table of 10_state.md R11 lists, and of
the input the next value alone (40_fetch_execute_cycle.md section 2). -/

namespace Sys2Proof.Machine

/-! ### The fault depends on the touched registers -/

theorem lt_of_firstBadField_none {i : Instr} (h : firstBadField i = none) : ∀ f ∈ i.usedRegisters, f.toNat < 16 :=
  fun f hf => by simpa [RegField.addressable] using List.find?_eq_none.mp h f hf

theorem touches_namedRegister {i : Instr} {f : RegField} (hmem : f ∈ i.usedRegisters) (hf : f.toNat < 16) :
    Touches i (namedRegister f) :=
  .inr ⟨f, hmem, names_namedRegister hf⟩

theorem fieldValue_congr {i : Instr} {s t : State} {f : RegField} (h : ∀ j, Touches i j → s.readX j = t.readX j)
    (hmem : f ∈ i.usedRegisters) (hf : f.toNat < 16) : fieldValue s f = fieldValue t f := by
  rw [fieldValue_of_lt s hf, fieldValue_of_lt t hf, h _ (touches_namedRegister hmem hf)]

theorem dataAddress_congr {i : Instr} {s t : State} (hfields : ∀ f ∈ i.usedRegisters, f.toNat < 16)
    (h : ∀ j, Touches i j → s.readX j = t.readX j) : dataAddress i s = dataAddress i t := by
  cases i with
  | movlDerefReg r1 r2 _ =>
    have hbase : fieldValue s r1 = fieldValue t r1 := fieldValue_congr h (.head _) (hfields r1 (.head _))
    rw [dataAddress, dataAddress, loadAddress, loadAddress, hbase]
    rfl
  | movlRegDeref r1 r2 _ =>
    have hbase : fieldValue s r2 = fieldValue t r2 :=
      fieldValue_congr h (.tail _ (.head _)) (hfields r2 (.tail _ (.head _)))
    rw [dataAddress, dataAddress, storeAddress, storeAddress, hbase]
    rfl
  | call _ | pushl _ | popl _ | ret =>
    have hsp : s.sp = t.sp := h Config.sp (.inl (.head _))
    simp only [dataAddress, storeAddress, loadAddress, hsp]
  | _ => rfl

/-- States that agree on the registers an instruction touches give it the same fault. -/
theorem instrFault_congr {i : Instr} {s t : State} (h : ∀ j, Touches i j → s.readX j = t.readX j) :
    instrFault i s = instrFault i t := by
  unfold instrFault
  split
  · rfl
  · next hgood => rw [dataAddress_congr (lt_of_firstBadField_none hgood) h]

theorem instrFault_congr_x {s t : State} (i : Instr) (h : s.x = t.x) : instrFault i s = instrFault i t :=
  instrFault_congr fun j _ => by rw [State.readX, State.readX, h]

/-! ### A change of the state that an instruction does not see -/

/-- A change that leaves the fault as it was and commutes with raising it and with the effect commutes with the
instruction. -/
theorem exec_comm {i : Instr} {s : State} (f : State → State) (hraise : ∀ c, (f s).raise c = f (s.raise c))
    (hfault : instrFault i (f s) = instrFault i s) (heffect : effect i (f s) = f (effect i s)) :
    exec i (f s) = mapNext f (exec i s) := by
  rw [exec_eq, exec_eq, hfault, heffect]
  cases instrFault i s with
  | none => rfl
  | some c => exact congrArg _ (hraise c)

/-! ### An untouched register -/

/-- A word stored to a slot of the memory: what `MemWrite` does once its check has passed (20_memory.md R34). -/
def State.storeWord (s : State) (a : Nat) (v : Word) : State := { s with mem := s.mem.writeWord a v }

/-- The R and W entries of 10_state.md R11 together: a write to any other register commutes with the effect. -/
theorem effect_writeX_of_not_touches {i : Instr} {j : Fin 17} (s : State) (v : Word)
    (hfields : ∀ f ∈ i.usedRegisters, f.toNat < 16) (h : ¬ Touches i j) :
    effect i (s.writeX j v) = (effect i s).writeX j v := by
  have hne : ∀ k, Touches i k → k ≠ j := by
    rintro k hk rfl
    exact h hk
  have hread : ∀ k, Touches i k → (s.writeX j v).readX k = s.readX k := fun k hk => s.readX_writeX_of_ne v (hne k hk)
  have hfield : ∀ f ∈ i.usedRegisters, Touches i (namedRegister f) := fun f hmem =>
    touches_namedRegister hmem (hfields f hmem)
  cases i with
  | subl r1 _ | addlImmReg r1 _ | shrl r1 | movlImmReg r1 _ =>
    have h1 := hfield r1 (.head _)
    simp only [effect, hread _ h1, s.writeX_comm v _ (hne _ h1).symm]
    rfl
  | addlRegReg r1 r2 | imull r1 r2 | movlRegReg r1 r2 =>
    have h1 := hfield r1 (.head _)
    have h2 := hfield r2 (.tail _ (.head _))
    simp only [effect, hread _ h1, hread _ h2, s.writeX_comm v _ (hne _ h2).symm]
    rfl
  | movlDerefReg r1 r2 imm =>
    have hbase := fieldValue_congr hread (.head _) (hfields r1 (.head _))
    have h2 := hfield r2 (.tail _ (.head _))
    simp only [effect, hbase, State.writeX_mem, s.writeX_comm v _ (hne _ h2).symm]
    rfl
  | movlRegDeref r1 r2 imm =>
    have hbase := fieldValue_congr hread (.tail _ (.head _)) (hfields r2 (.tail _ (.head _)))
    simp only [effect, hbase, hread _ (hfield r1 (.head _))]
    rfl
  | cmpl r1 r2 =>
    have h1 := hfield r1 (.head _)
    have h2 := hfield r2 (.tail _ (.head _))
    have hflags := hne Config.flags (.inl (.head _))
    simp only [effect, hread _ h1, hread _ h2, s.writeX_comm v _ hflags.symm]
    rfl
  | je _ | jl _ | jle _ | jge _ | jbe _ =>
    have hflags : (s.writeX j v).flags = s.flags := hread Config.flags (.inl (.head _))
    rw [effect, effect, hflags]
    split <;> rfl
  | call imm =>
    have hsp : (s.writeX j v).sp = s.sp := hread Config.sp (.inl (.head _))
    have hspne := hne Config.sp (.inl (.head _))
    rw [effect, effect, hsp]
    exact congrArg (State.goto · (branchTarget s.pc imm)) (State.writeX_comm (s.storeWord _ _) v (s.sp - 4) hspne.symm)
  | ret =>
    have hsp : (s.writeX j v).sp = s.sp := hread Config.sp (.inl (.head _))
    have hspne := hne Config.sp (.inl (.head _))
    rw [effect, effect, hsp, s.writeX_comm v _ hspne.symm]
    split <;> rfl
  | pushl r1 =>
    have hsp : (s.writeX j v).sp = s.sp := hread Config.sp (.inl (.head _))
    have hspne := hne Config.sp (.inl (.head _))
    rw [effect, effect, hsp, hread _ (hfield r1 (.head _))]
    exact congrArg State.advance (State.writeX_comm (s.storeWord _ _) v (s.sp - 4) hspne.symm)
  | popl r1 =>
    have hsp : (s.writeX j v).sp = s.sp := hread Config.sp (.inl (.head _))
    have hspne := hne Config.sp (.inl (.head _))
    have h1 := hfield r1 (.head _)
    have hloaded (t : State) : (t.writeX j v).sp = t.sp := t.readX_writeX_of_ne v hspne
    rw [effect, effect, hsp, State.writeX_mem, s.writeX_comm v _ (hne _ h1).symm, hloaded,
      State.writeX_comm _ v _ hspne.symm]
    rfl
  | printr r1 =>
    rw [effect, effect, hread _ (hfield r1 (.head _))]
    rfl
  | readr r1 =>
    have h1 := hfield r1 (.head _)
    cases hv : s.nextInput with
    | none => rw [effect_readr_of_no_input hv, effect_readr_of_no_input (s := s.writeX j v) hv]
    | some w =>
      rw [effect_readr_of_nextInput hv, effect_readr_of_nextInput (s := s.writeX j v) hv]
      exact congrArg State.advance (s.consumeInput.writeX_comm v w (hne _ h1).symm)
  | _ => rfl

theorem exec_writeX_of_not_touches {i : Instr} {j : Fin 17} (s : State) (v : Word) (h : ¬ Touches i j) :
    exec i (s.writeX j v) = mapNext (fun t => t.writeX j v) (exec i s) := by
  have hfault : instrFault i (s.writeX j v) = instrFault i s := by
    refine instrFault_congr fun k hk => s.readX_writeX_of_ne v ?_
    rintro rfl
    exact h hk
  cases hnone : instrFault i s with
  | none =>
    have heffect := effect_writeX_of_not_touches s v (lt_of_instrFault_none hnone) h
    exact exec_comm (fun t => t.writeX j v) (fun _ => rfl) hfault heffect
  | some c =>
    rw [exec_eq, exec_eq, hfault, hnone]
    rfl

/-! ### The input -/

/-- A state with another input delivered so far. -/
def State.withInput (s : State) (input : List Word) : State := { s with input := input }

theorem flags_withInput (s : State) (input : List Word) : (s.withInput input).flags = s.flags := rfl
theorem sp_withInput (s : State) (input : List Word) : (s.withInput input).sp = s.sp := rfl
theorem fetch_withInput (s : State) (input : List Word) : fetch (s.withInput input) = fetch s := rfl

/-- Of the input an effect sees the next value alone, and only that of `readr`. -/
theorem effect_withInput {i : Instr} (s : State) (input : List Word)
    (h : ∀ r1, i = .readr r1 → input[s.inpos]? = s.input[s.inpos]?) :
    effect i (s.withInput input) = (effect i s).withInput input := by
  cases i with
  | readr r1 =>
    have hnext : (s.withInput input).nextInput = s.nextInput := h r1 rfl
    rw [effect, effect, hnext]
    split <;> rfl
  | je _ | jl _ | jle _ | jge _ | jbe _ =>
    rw [effect, effect, flags_withInput]
    split <;> rfl
  | ret =>
    rw [effect, effect, sp_withInput]
    split <;> rfl
  | _ => rfl

theorem exec_withInput {i : Instr} (s : State) (input : List Word)
    (h : ∀ r1, i = .readr r1 → input[s.inpos]? = s.input[s.inpos]?) :
    exec i (s.withInput input) = mapNext (fun t => t.withInput input) (exec i s) :=
  exec_comm (fun t => t.withInput input) (fun _ => rfl) (instrFault_congr_x i rfl) (effect_withInput s input h)

theorem fetchAndExecute_withInput (s : State) (input : List Word)
    (h : ∀ w r1, fetch s = .word w → decode w = .readr r1 → input[s.inpos]? = s.input[s.inpos]?) :
    fetchAndExecute (s.withInput input) = mapNext (fun t => t.withInput input) (fetchAndExecute s) := by
  rw [fetchAndExecute, fetchAndExecute, fetch_withInput]
  cases hfetch : fetch s with
  | endOfStream => rfl
  | badPc => rfl
  | word w => exact exec_withInput s input fun r1 hdecode => h w r1 hfetch hdecode

/-! ### The step in a state it refuses or has left -/

/-- The model's form of "no step happens" (log 3). -/
theorem step_of_not_running {s : State} (h : s.status ≠ .running) : step s = .fault (.runOver s.status) := by
  unfold step runLoop
  split
  · next hrunning => exact absurd hrunning h
  · rfl

/-- The model's form of "not a valid configuration" (log 5). -/
theorem step_of_tooManyWords {s : State} (hrunning : s.status = .running) (hcount : Program.wellFormed s.imem = false) :
    step s = .refused (.tooManyWords s.imem.length) := by
  simp [step, runLoop, hrunning, hcount]

theorem step_withInput (s : State) (input : List Word)
    (h : ∀ w r1, fetch s = .word w → decode w = .readr r1 → input[s.inpos]? = s.input[s.inpos]?) :
    step (s.withInput input) = mapNext (fun t => t.withInput input) (step s) := by
  by_cases hrunning : s.status = .running
  · cases hcount : Program.wellFormed s.imem with
    | true =>
      rw [step_of_running hrunning hcount, step_of_running (s := s.withInput input) hrunning hcount]
      exact fetchAndExecute_withInput s input h
    | false =>
      rw [step_of_tooManyWords hrunning hcount, step_of_tooManyWords (s := s.withInput input) hrunning hcount]
      rfl
  · rw [step_of_not_running hrunning, step_of_not_running (s := s.withInput input) hrunning]
    rfl

/-! ### The claims -/

/-- Settles O43: neither the fault nor the effect sees a register that no entry of the table names. -/
theorem untouchedRegistersDoNotMatter : Obligations.UntouchedRegistersDoNotMatter := by
  unfold Obligations.UntouchedRegistersDoNotMatter
  intro i s j v h
  exact exec_writeX_of_not_touches s v h

/-- Settles O37: no check of the sequencer and no fault sees the input, and an effect sees the value `readr` takes. -/
theorem stepReadsOnlyNextInput : Obligations.StepReadsOnlyNextInput := by
  unfold Obligations.StepReadsOnlyNextInput
  exact step_withInput

/-- Settles O33: the sequencer looks at the status before everything else. -/
theorem terminalStatusTakesNoStep : Obligations.TerminalStatusTakesNoStep := by
  unfold Obligations.TerminalStatusTakesNoStep
  exact fun s h => step_of_not_running h

/-- Settles O34: the count is checked next, before the fetch. -/
theorem tooManyWordsRefused : Obligations.TooManyWordsRefused := by
  unfold Obligations.TooManyWordsRefused
  exact fun s hrunning hcount => step_of_tooManyWords hrunning (decide_eq_false (Nat.not_le.mpr hcount))

end Sys2Proof.Machine
end

section
/-! The flags between a comparison and a branch (43_compare_and_branch.md R90, R98; 10_state.md R16): what each bit of the
word `cmpl` leaves says of the operands, which words it can leave, and that no other instruction changes them. -/

namespace Sys2Proof.Machine

/-! ### The four bits of the flags word -/

/-- The flags word that holds these four flags, as the sum R90 writes. -/
def flagsWord (cf zf sf of : Bool) : Word :=
  maskIf cf carryMask + maskIf zf zeroMask + maskIf sf signMask + maskIf of overflowMask

/-! The four masks do not overlap, so the sum keeps each bit. -/

theorem carryFlag_flagsWord (cf zf sf of : Bool) : carryFlag (flagsWord cf zf sf of) = cf := by
  revert cf zf sf of
  decide

theorem zeroFlag_flagsWord (cf zf sf of : Bool) : zeroFlag (flagsWord cf zf sf of) = zf := by
  revert cf zf sf of
  decide

theorem signFlag_flagsWord (cf zf sf of : Bool) : signFlag (flagsWord cf zf sf of) = sf := by
  revert cf zf sf of
  decide

theorem overflowFlag_flagsWord (cf zf sf of : Bool) : overflowFlag (flagsWord cf zf sf of) = of := by
  revert cf zf sf of
  decide

theorem compareFlags_eq_flagsWord (a b : Word) :
    compareFlags a b =
      flagsWord (decide (a.toNat > b.toNat)) (decide (compareValue a b = 0))
        ((BitVec.ofInt 64 (compareValue a b)).getLsbD 31)
        (decide (compareValue a b < -2 ^ 31 ∨ compareValue a b > 2 ^ 31 - 1)) := rfl

theorem carryFlag_compareFlags (a b : Word) : carryFlag (compareFlags a b) = true ↔ b.toNat < a.toNat := by
  rw [compareFlags_eq_flagsWord, carryFlag_flagsWord, decide_eq_true_iff]

theorem compareValue_eq_zero_iff (a b : Word) : compareValue a b = 0 ↔ a = b := by
  rw [compareValue, Int.sub_eq_zero, BitVec.toInt_inj, eq_comm]

theorem zeroFlag_compareFlags (a b : Word) : zeroFlag (compareFlags a b) = true ↔ a = b := by
  rw [compareFlags_eq_flagsWord, zeroFlag_flagsWord, decide_eq_true_iff, compareValue_eq_zero_iff]

/-- The wrapped difference is negative where the exact one is, and the other way round where that does not fit. -/
theorem msb_sub_iff (a b : Word) :
    (b - a).msb = true ↔ (-2 ^ 31 ≤ compareValue a b ∧ compareValue a b < 0) ∨ 2 ^ 31 - 1 < compareValue a b := by
  have ha := a.toInt_lt
  have ha' := a.le_toInt
  have hb := b.toInt_lt
  have hb' := b.le_toInt
  rw [BitVec.msb_eq_toInt, decide_eq_true_iff, BitVec.toInt_sub, compareValue, Int.bmod_def]
  split <;> omega

theorem signFlag_compareFlags (a b : Word) :
    signFlag (compareFlags a b) = true ↔
      (-2 ^ 31 ≤ compareValue a b ∧ compareValue a b < 0) ∨ 2 ^ 31 - 1 < compareValue a b := by
  rw [compareFlags_eq_flagsWord, signFlag_flagsWord, getLsbD_31_compareValue, msb_sub_iff]

theorem overflowFlag_compareFlags (a b : Word) :
    overflowFlag (compareFlags a b) = true ↔ compareValue a b < -2 ^ 31 ∨ compareValue a b > 2 ^ 31 - 1 := by
  rw [compareFlags_eq_flagsWord, overflowFlag_flagsWord, decide_eq_true_iff]

/-! ### The five conditions after a comparison (R98) -/

theorem condEqual_compareFlags (a b : Word) : condEqual (compareFlags a b) = true ↔ a = b := zeroFlag_compareFlags a b

/-- OF says that SF is the wrong sign, so their difference is the sign of the exact difference. -/
theorem condLess_compareFlags (a b : Word) : condLess (compareFlags a b) = true ↔ b.toInt < a.toInt := by
  rw [condLess_iff, ne_eq, Bool.eq_iff_iff, overflowFlag_compareFlags, signFlag_compareFlags, compareValue]
  omega

theorem condLessEqual_compareFlags (a b : Word) : condLessEqual (compareFlags a b) = true ↔ b.toInt ≤ a.toInt := by
  rw [condLessEqual_iff, ← condLess_iff, condLess_compareFlags, zeroFlag_compareFlags, Int.le_iff_lt_or_eq,
    BitVec.toInt_inj, eq_comm (a := a)]

theorem condGreaterEqual_compareFlags (a b : Word) :
    condGreaterEqual (compareFlags a b) = true ↔ b.toInt ≥ a.toInt := by
  rw [condGreaterEqual_iff, ← not_iff_not, ← ne_eq, ← condLess_iff, condLess_compareFlags, ge_iff_le, Int.not_le]

theorem condBelowEqual_compareFlags (a b : Word) : condBelowEqual (compareFlags a b) = true ↔ b.toNat ≤ a.toNat := by
  rw [condBelowEqual_iff, zeroFlag_compareFlags, carryFlag_compareFlags, Nat.le_iff_lt_or_eq, BitVec.toNat_inj, or_comm,
    eq_comm (a := a)]

/-! ### The seven values (10_state.md R16) -/

/-- Of the sixteen sums, the two conditions leave the seven. -/
theorem flagsWord_mem_compareResults (cf zf sf of : Bool) (hzero : zf = true → cf = false ∧ sf = false ∧ of = false)
    (hoverflow : of = true → cf = sf) :
    flagsWord cf zf sf of ∈ compareResults := by
  revert cf zf sf of
  decide

/-- Where the exact difference does not fit, the operand with the sign bit is the greater pattern. -/
theorem carry_eq_sign_of_overflow {a b : Word} (h : compareValue a b < -2 ^ 31 ∨ compareValue a b > 2 ^ 31 - 1) :
    b.toNat < a.toNat ↔ (b - a).msb = true := by
  have ha := a.isLt
  have hb := b.isLt
  rw [msb_sub_iff]
  rw [compareValue, BitVec.toInt_eq_toNat_cond, BitVec.toInt_eq_toNat_cond] at *
  split at * <;> split at * <;> omega

theorem compareFlags_mem_compareResults (a b : Word) : compareFlags a b ∈ compareResults := by
  rw [compareFlags_eq_flagsWord]
  refine flagsWord_mem_compareResults _ _ _ _ ?zero ?overflow
  case zero =>
    rw [decide_eq_true_iff, compareValue_eq_zero_iff]
    rintro rfl
    simp [compareValue]
  case overflow =>
    rw [decide_eq_true_iff, getLsbD_31_compareValue]
    intro h
    rw [Bool.eq_iff_iff, decide_eq_true_iff]
    exact carry_eq_sign_of_overflow h

/-- Operands for each of the seven values, the extremes of the number line among them. -/
theorem exists_compareFlags_eq {f : Word} (h : f ∈ compareResults) : ∃ a b : Word, compareFlags a b = f := by
  simp only [compareResults, List.mem_cons, List.not_mem_nil, or_false] at h
  rcases h with rfl | rfl | rfl | rfl | rfl | rfl | rfl
  · exact ⟨0, 1, by decide⟩
  · exact ⟨0xFFFFFFFF, 0, by decide⟩
  · exact ⟨0, 0, by decide⟩
  · exact ⟨0, 0xFFFFFFFF, by decide⟩
  · exact ⟨1, 0, by decide⟩
  · exact ⟨1, 0x80000000, by decide⟩
  · exact ⟨0x80000000, 1, by decide⟩

/-! ### The flags under the other instructions -/

theorem not_names_flags (f : RegField) : ¬ Names f Config.flags := by
  rintro ⟨hindex, hlt⟩
  exact absurd (hindex ▸ hlt) (by decide)

/-- The W column of 10_state.md R11 has one entry for `x[16]`. -/
theorem not_writes_flags {i : Instr} (h : ∀ r1 r2, i ≠ .cmpl r1 r2) : ¬ Writes i Config.flags := by
  cases i with
  | cmpl r1 r2 => exact absurd rfl (h r1 r2)
  | subl r1 _ | addlImmReg r1 _ | shrl r1 | movlImmReg r1 _ | readr r1 => exact not_names_flags r1
  | addlRegReg _ r2 | imull _ r2 | movlRegReg _ r2 | movlDerefReg _ r2 _ => exact not_names_flags r2
  | popl r1 => exact not_or.mpr ⟨by decide, not_names_flags r1⟩
  | call _ | ret | pushl _ => exact (by decide : Config.flags ≠ Config.sp)
  | _ => exact not_false

theorem exec_flags_of_ne_cmpl {i : Instr} {s t : State} (hexec : exec i s = .next t) (h : ∀ r1 r2, i ≠ .cmpl r1 r2) :
    t.flags = s.flags :=
  unwrittenRegistersKeepValue i s t Config.flags hexec (not_writes_flags h)

/-! ### Instructions one after the other -/

theorem execAll_cons_of_running {i : Instr} {rest : List Instr} {s u : State} (hexec : exec i s = .next u)
    (hrunning : u.status = .running) : execAll (i :: rest) s = execAll rest u := by
  rw [execAll, hexec]
  exact if_pos hrunning

/-- A sequence that answers a next state went on after its first instruction, or ended there. -/
theorem execAll_cons_next {i : Instr} {rest : List Instr} {s t : State} (h : execAll (i :: rest) s = .next t) :
    ∃ u, exec i s = .next u ∧ (execAll rest u = .next t ∨ t = u) := by
  rw [execAll] at h
  split at h
  · next u hexec =>
    split at h
    · exact ⟨u, hexec, .inl h⟩
    · exact ⟨u, hexec, .inr (Host.Outcome.next.inj h).symm⟩
  · next hexec => exact ⟨t, h, .inr rfl⟩

theorem execAll_flags {is : List Instr} (h : ∀ i ∈ is, ∀ r1 r2, i ≠ .cmpl r1 r2) {s t : State}
    (hexec : execAll is s = .next t) : t.flags = s.flags := by
  induction is generalizing s with
  | nil => cases hexec; rfl
  | cons i rest ih =>
    obtain ⟨u, hfirst, hrest | rfl⟩ := execAll_cons_next hexec
    · have hu : u.flags = s.flags := exec_flags_of_ne_cmpl hfirst (h i (.head _))
      exact (ih (fun j hj => h j (.tail _ hj)) hrest).trans hu
    · exact exec_flags_of_ne_cmpl hfirst (h i (.head _))

/-! ### The claims -/

/-- Settles O49: a value of `cmpl` meets the two conditions of `flagsWord_mem_compareResults`, and each of the seven has
operands. -/
theorem cmplProducesExactlySevenValues : Obligations.CmplProducesExactlySevenValues := by
  unfold Obligations.CmplProducesExactlySevenValues
  refine fun f => ⟨exists_compareFlags_eq, ?_⟩
  rintro ⟨a, b, rfl⟩
  exact compareFlags_mem_compareResults a b

/-- Settles O48: each branch is `branchIf` of its condition on the flags the `cmpl` wrote. -/
theorem branchAfterCmplFollowsOrder : Obligations.BranchAfterCmplFollowsOrder := by
  unfold Obligations.BranchAfterCmplFollowsOrder
  intro r1 r2 a b imm s t u va vb target ha hb hva hvb hexec hflags htarget
  subst hva hvb htarget
  rw [exec_cmpl_of_names s ha hb] at hexec
  cases hexec
  have hu : u.flags = compareFlags (s.readX a) (s.readX b) := hflags.trans (State.readX_writeX_same s Config.flags _)
  refine ⟨?je, ?jl, ?jle, ?jge, ?jbe⟩
  case je => exact branchIf_eq (hu ▸ condEqual_compareFlags (s.readX a) (s.readX b)) imm u
  case jl => exact branchIf_eq (hu ▸ condLess_compareFlags (s.readX a) (s.readX b)) imm u
  case jle => exact branchIf_eq (hu ▸ condLessEqual_compareFlags (s.readX a) (s.readX b)) imm u
  case jge => exact branchIf_eq (hu ▸ condGreaterEqual_compareFlags (s.readX a) (s.readX b)) imm u
  case jbe => exact branchIf_eq (hu ▸ condBelowEqual_compareFlags (s.readX a) (s.readX b)) imm u

/-- Settles O47, by induction on the list: each instruction but `cmpl` leaves `x[16]`, a fault and a hold included. -/
theorem flagsPersistUntilNextCmpl : Obligations.FlagsPersistUntilNextCmpl := by
  unfold Obligations.FlagsPersistUntilNextCmpl
  exact fun is s t h hexec => execAll_flags h hexec

end Sys2Proof.Machine
end

section
/-! The step and the machine's invariant (40_fetch_execute_cycle.md R70; 10_state.md sections 3 to 5): a step has a next
state, reports the first fault of R115, keeps the invariant, and only extends what a run has read and written. -/

namespace Sys2Proof.Machine

/-! ### A next state is always there -/

theorem exists_exec_next (i : Instr) (s : State) : ∃ t, exec i s = .next t := by
  rw [exec_eq]
  cases instrFault i s with
  | none => exact ⟨effect i s, rfl⟩
  | some c => exact ⟨s.raise c, rfl⟩

theorem exists_step_next {s : State} (hrunning : s.status = .running) (hcount : Program.wellFormed s.imem = true) :
    ∃ t, step s = .next t := by
  rw [step_of_running hrunning hcount]
  rcases fetchAndExecute_cases s with ⟨_, hend⟩ | ⟨_, hraise⟩ | ⟨w, _, hexec⟩
  · exact ⟨_, hend⟩
  · exact ⟨_, hraise⟩
  · rw [hexec]
    exact exists_exec_next (decode w) s

theorem step_of_fetch_word {s : State} {w : Word} (hrunning : s.status = .running)
    (hcount : Program.wellFormed s.imem = true) (hfetch : fetch s = .word w) : step s = exec (decode w) s := by
  rw [step_of_running hrunning hcount, fetchAndExecute, hfetch]

/-! ### What the fault of a step depends on -/

theorem fetch_congr {s t : State} (hpc : s.pc = t.pc) (himem : s.imem = t.imem) : fetch s = fetch t := by
  rw [fetch, fetch, hpc, himem]

theorem stepFault_congr {s t : State} (hx : s.x = t.x) (hpc : s.pc = t.pc) (himem : s.imem = t.imem) :
    stepFault s = stepFault t := by
  rw [stepFault, stepFault, fetch_congr hpc himem]
  split
  · rfl
  · rw [hpc]
  · exact instrFault_congr_x _ hx

/-- The fault found is that of the registers and the store, whatever status stands beside them. -/
theorem stepFault_halt (s : State) (k : Status) : stepFault (s.halt k) = stepFault s := stepFault_congr rfl rfl rfl

theorem stepFault_deliver (s : State) (v : Word) : stepFault (s.deliver v) = stepFault s := stepFault_congr rfl rfl rfl

/-! ### The invariant over a change of the status or of the input -/

theorem statusExplained_of_running {s : State} (h : s.status = .running) : StatusExplained s := by
  rw [StatusExplained, h]
  trivial

theorem Inv.halt {s : State} (h : Inv s) {k : Status} (hexplained : StatusExplained (s.halt k)) : Inv (s.halt k) :=
  ⟨h.memory_wf, h.flags_from_cmpl, h.consumed_le_delivered, h.count_legal, hexplained⟩

theorem Inv.raise {s : State} (h : Inv s) {c : FaultCause} (hfault : stepFault s = some c) : Inv (s.raise c) :=
  h.halt (k := .fault c) ((stepFault_halt s (.fault c)).trans hfault)

theorem statusExplained_deliver {s : State} (h : StatusExplained s) (v : Word) : StatusExplained (s.deliver v) := by
  unfold StatusExplained at h ⊢
  rw [stepFault_deliver]
  exact h

theorem Inv.deliver {s : State} (h : Inv s) (v : Word) : Inv (s.deliver v) where
  memory_wf := h.memory_wf
  flags_from_cmpl := h.flags_from_cmpl
  consumed_le_delivered := by
    have hlength : (s.deliver v).input.length = s.input.length + 1 := List.length_append
    rw [hlength]
    exact Nat.le_succ_of_le h.consumed_le_delivered
  count_legal := h.count_legal
  status_explained := statusExplained_deliver h.status_explained v

/-! ### The invariant over an effect -/

theorem dataAddress_of_storeAddress {i : Instr} {s : State} {a : Word} (h : storeAddress i s = some a) :
    dataAddress i s = some a := by
  rw [dataAddress, h, Option.some_or]

/-- Without a fault the word stored lies inside the memory. -/
theorem effect_mem_wf {i : Instr} {s : State} (hnone : instrFault i s = none) (h : Memory.wf s.mem = true) :
    Memory.wf (effect i s).mem = true := by
  cases ha : storeAddress i s with
  | none => rwa [effect_mem_of_storeAddress_none ha]
  | some a =>
    obtain ⟨v, hmem⟩ := exists_effect_mem_eq_writeWord ha
    obtain ⟨_, hbound⟩ := dataAddress_of_instrFault_none hnone (dataAddress_of_storeAddress ha)
    rw [hmem]
    exact Memory.wf_writeWord h (Nat.lt_of_le_of_lt (Nat.add_le_add_right hbound 3) (by decide)) v

/-- `cmpl` writes one of the seven values, and no other instruction writes the flags. -/
theorem effect_flags_mem {i : Instr} {s : State} (hnone : instrFault i s = none) (h : s.flags ∈ compareResults) :
    (effect i s).flags ∈ compareResults := by
  by_cases hcmpl : ∃ r1 r2, i = .cmpl r1 r2
  · obtain ⟨r1, r2, rfl⟩ := hcmpl
    rw [effect, State.flags_advance, State.flags_writeX, if_pos rfl]
    exact compareFlags_mem_compareResults _ _
  · have hother : ∀ r1 r2, i ≠ .cmpl r1 r2 := fun r1 r2 hi => hcmpl ⟨r1, r2, hi⟩
    have hflags : (effect i s).flags = s.flags :=
      effect_readX_of_not_writes (lt_of_instrFault_none hnone) (not_writes_flags hother)
    rwa [hflags]

/-- `readr` consumes a value only when it is there. -/
theorem effect_consumed_le_delivered (i : Instr) {s : State} (h : s.inpos ≤ s.input.length) :
    (effect i s).inpos ≤ (effect i s).input.length := by
  rw [effect_input]
  rcases effect_inpos i s with hinpos | ⟨_, _, hlt, hinpos⟩
  · rwa [hinpos]
  · rwa [hinpos]

/-- The one status an effect sets is explained by the `ret` that set it. -/
theorem effect_statusExplained {s : State} {w : Word} (hrunning : s.status = .running) (hfetch : fetch s = .word w) :
    StatusExplained (effect (decode w) s) := by
  by_cases hret : decode w = .ret
  · rw [hret]
    by_cases htop : s.sp = Config.stackTop
    · rw [effect, if_pos htop]
      exact ⟨htop, w, hfetch, hret⟩
    · exact statusExplained_of_running (by rw [effect_ret_status, if_neg htop, hrunning])
  · exact statusExplained_of_running ((effect_status_of_ne_ret hret s).trans hrunning)

theorem Inv.effect {s : State} {w : Word} (h : Inv s) (hrunning : s.status = .running) (hfetch : fetch s = .word w)
    (hnone : instrFault (decode w) s = none) : Inv (effect (decode w) s) where
  memory_wf := effect_mem_wf hnone h.memory_wf
  flags_from_cmpl := effect_flags_mem hnone h.flags_from_cmpl
  consumed_le_delivered := effect_consumed_le_delivered _ h.consumed_le_delivered
  count_legal := by rw [effect_imem]; exact h.count_legal
  status_explained := effect_statusExplained hrunning hfetch

/-! ### The invariant along a run -/

theorem step_keeps_inv {s t : State} (h : Inv s) (hstep : step s = .next t) : Inv t := by
  obtain ⟨hrunning, _, hnext⟩ := step_next_cases hstep
  rcases fetchAndExecute_cases s with ⟨hfetch, hend⟩ | ⟨hfetch, hraise⟩ | ⟨w, hfetch, hexec⟩
  case inl =>
    cases hend.symm.trans hnext
    exact h.halt (k := .haltEnd) (fetch_endOfStream_iff.mp hfetch)
  case inr.inl =>
    cases hraise.symm.trans hnext
    exact h.raise (stepFault_of_badPc hfetch)
  case inr.inr =>
    rcases exec_next (hexec.symm.trans hnext) with ⟨c, hfault, rfl⟩ | ⟨hnone, rfl⟩
    · exact h.raise ((stepFault_of_word hfetch).trans hfault)
    · exact h.effect hrunning hfetch hnone

theorem inv_start {imem : List Word} (input : List Word) (hcount : Program.wellFormed imem = true) :
    Inv (State.start imem input) where
  memory_wf := Memory.wf_reset
  flags_from_cmpl := by
    have hflags : (State.start imem input).flags = 0 := readX_reset Config.flags
    rw [hflags]
    decide
  consumed_le_delivered := Nat.zero_le _
  count_legal := hcount
  status_explained := trivial

theorem inv_of_reaches {s t : State} (h : Inv s) (hrun : Reaches s t) : Inv t := by
  induction hrun with
  | start => exact h
  | step _ hstep ih => exact step_keeps_inv ih hstep
  | deliver v _ ih => exact ih.deliver v

/-- The four flag bits are the only ones the seven values use. -/
theorem and_not_flagMask_of_mem_compareResults {f : Word} (h : f ∈ compareResults) : f &&& ~~~0x8C1 = 0 := by
  simp only [compareResults, List.mem_cons, List.not_mem_nil, or_false] at h
  rcases h with rfl | rfl | rfl | rfl | rfl | rfl | rfl <;> rfl

/-! ### What a run only extends -/

/-- `t` is `s` with the same instruction words and no less input delivered, output written and input consumed. -/
structure Extends (s t : State) : Prop where
  imem : t.imem = s.imem
  input : s.input <+: t.input
  out : s.out <+: t.out
  inpos : s.inpos ≤ t.inpos

theorem Extends.refl (s : State) : Extends s s := ⟨rfl, List.prefix_rfl, List.prefix_rfl, Nat.le_refl _⟩

theorem Extends.trans {s t u : State} (h : Extends s t) (h' : Extends t u) : Extends s u :=
  ⟨h'.imem.trans h.imem, h.input.trans h'.input, h.out.trans h'.out, Nat.le_trans h.inpos h'.inpos⟩

theorem extends_halt (s : State) (k : Status) : Extends s (s.halt k) :=
  ⟨rfl, List.prefix_rfl, List.prefix_rfl, Nat.le_refl _⟩

theorem extends_raise (s : State) (c : FaultCause) : Extends s (s.raise c) := extends_halt s (.fault c)

theorem extends_deliver (s : State) (v : Word) : Extends s (s.deliver v) :=
  ⟨rfl, List.prefix_append _ _, List.prefix_rfl, Nat.le_refl _⟩

theorem extends_effect (i : Instr) (s : State) : Extends s (effect i s) where
  imem := effect_imem i s
  input := by rw [effect_input]
  out := by
    rcases effect_out i s with hout | ⟨_, _, hout⟩
    · rw [hout]
    · rw [hout]
      exact List.prefix_append _ _
  inpos := by
    rcases effect_inpos i s with hinpos | ⟨_, _, _, hinpos⟩
    · rw [hinpos]
    · rw [hinpos]
      exact Nat.le_succ _

theorem extends_of_step {s t : State} (hstep : step s = .next t) : Extends s t := by
  obtain ⟨_, _, hnext⟩ := step_next_cases hstep
  rcases fetchAndExecute_cases s with ⟨_, hend⟩ | ⟨_, hraise⟩ | ⟨w, _, hexec⟩
  case inl =>
    cases hend.symm.trans hnext
    exact extends_halt s .haltEnd
  case inr.inl =>
    cases hraise.symm.trans hnext
    exact extends_raise s _
  case inr.inr =>
    rcases exec_next (hexec.symm.trans hnext) with ⟨c, _, rfl⟩ | ⟨_, rfl⟩
    · exact extends_raise s c
    · exact extends_effect (decode w) s

theorem extends_of_reaches {s t : State} (hrun : Reaches s t) : Extends s t := by
  induction hrun with
  | start => exact .refl s
  | step _ hstep ih => exact ih.trans (extends_of_step hstep)
  | deliver v _ ih => exact ih.trans (extends_deliver _ v)

/-! ### The register fault -/

theorem wellFormed_eq_false_iff {i : Instr} : i.wellFormed = false ↔ ∃ f, firstBadField i = some f := by
  rw [← Option.isSome_iff_exists, firstBadField, List.find?_isSome, Instr.wellFormed, List.all_eq_false]
  simp only [Bool.not_eq_true, Bool.not_eq_true']

theorem ge_of_firstBadField {i : Instr} {f : RegField} (h : firstBadField i = some f) : 16 ≤ f.toNat := by
  have hbad : (!f.addressable) = true := List.find?_some (p := fun f => !RegField.addressable f) h
  simpa [RegField.addressable] using hbad

theorem addressFault_ne_registerIndex (a : Word) (f : RegField) : addressFault a ≠ some (.registerIndex f) := by
  unfold addressFault
  split_ifs <;> simp

theorem firstBadField_of_instrFault {i : Instr} {s : State} {f : RegField}
    (h : instrFault i s = some (.registerIndex f)) : firstBadField i = some f := by
  unfold instrFault at h
  split at h
  · next g hg =>
    cases h
    exact hg
  · obtain ⟨a, _, ha⟩ := Option.bind_eq_some_iff.mp h
    exact absurd ha (addressFault_ne_registerIndex a f)

/-! ### The claims -/

/-- Settles O29: over the sequencer's three cases, the end and a fault change the status alone and explain it; an effect
keeps each part of the invariant by its own lemma. -/
theorem stepKeepsInvariant : Obligations.StepKeepsInvariant := by
  unfold Obligations.StepKeepsInvariant
  exact fun s t h hstep => step_keeps_inv h hstep

/-- Settles O28: reset alone is a start with no words and no input. -/
theorem resetMeetsInvariant : Obligations.ResetMeetsInvariant := by
  unfold Obligations.ResetMeetsInvariant
  exact ⟨inv_start [] (by decide), fun imem input hcount => inv_start input hcount⟩

/-- Settles O30: the invariant holds at the start and along the run, and it holds what the claim asks. -/
theorem runsKeepFlagsReachable : Obligations.RunsKeepFlagsReachable := by
  unfold Obligations.RunsKeepFlagsReachable
  intro imem input t hcount hrun
  have hinv : Inv t := inv_of_reaches (inv_start input hcount) hrun
  exact ⟨hinv.flags_from_cmpl, and_not_flagMask_of_mem_compareResults hinv.flags_from_cmpl, hinv.memory_wf⟩

/-- Settles O31: such a pc is fetchable, and the sequencer adds nothing to the instruction. -/
theorem stepRunsDecodedInstruction : Obligations.StepRunsDecodedInstruction := by
  unfold Obligations.StepRunsDecodedInstruction
  rintro s k w i hrunning hcount hpc hw rfl
  have hfetch : fetch s = .word w := by
    rw [fetch_word_iff, hpc, Nat.mul_mod_right, Nat.mul_div_cancel_left k (by decide)]
    exact ⟨rfl, hw⟩
  exact step_of_fetch_word hrunning hcount hfetch

/-- Settles O35: an instruction answers its fault or its effect, and a step the end, a fault or an
instruction's answer. -/
theorem everyInstructionHasNextState : Obligations.EveryInstructionHasNextState := by
  unfold Obligations.EveryInstructionHasNextState
  exact ⟨exists_exec_next, fun s hrunning hcount => exists_step_next hrunning hcount⟩

/-- Settles O36, by induction on the run. -/
theorem runsKeepInstructionStore : Obligations.RunsKeepInstructionStore := by
  unfold Obligations.RunsKeepInstructionStore
  intro s t hrun
  obtain ⟨himem, hinput, hout, hinpos⟩ := extends_of_reaches hrun
  exact ⟨himem, hinput, hout, hinpos⟩

/-- Settles O38: the next state that is there raises the fault of `stepFault`, or there is none and it has no fault. -/
theorem stepReportsFirstFault : Obligations.StepReportsFirstFault := by
  unfold Obligations.StepReportsFirstFault
  intro s hrunning hcount
  obtain ⟨t, hstep⟩ := exists_step_next hrunning hcount
  rcases step_next_raise_or_not_isFault hstep with ⟨raised, hraised, rfl⟩ | ⟨hnone, hnotFault⟩
  · refine ⟨fun c hc => ?_, fun hnone => absurd (hraised.symm.trans hnone) (Option.some_ne_none _)⟩
    obtain rfl : raised = c := Option.some.inj (hraised.symm.trans hc)
    exact hstep
  · exact ⟨fun c hc => absurd (hc.symm.trans hnone) (Option.some_ne_none _), fun _ => ⟨t, hstep, hnotFault⟩⟩

/-- Settles O40: the table row by row; the pc and the field are widened to a word, which keeps their number. -/
theorem faultCodesAndInfo : Obligations.FaultCodesAndInfo := by
  unfold Obligations.FaultCodesAndInfo
  intro p a f
  exact ⟨rfl, wordOfPc_eq p, rfl, BitVec.toNat_setWidth_of_le (by decide), rfl, rfl, rfl, rfl⟩

/-- Settles O41: the first bad field is the fault; and a state whose status is that fault is not an effect, which has
none, so it comes from a bad field. -/
theorem registerFaultIffIllFormed : Obligations.RegisterFaultIffIllFormed := by
  unfold Obligations.RegisterFaultIffIllFormed
  intro i s hrunning
  rw [wellFormed_eq_false_iff]
  refine ⟨?raised, ?illFormed⟩
  case raised =>
    rintro ⟨f, hf⟩
    exact ⟨f, ge_of_firstBadField hf, exec_of_firstBadField s hf⟩
  case illFormed =>
    rintro ⟨f, _, hexec⟩
    rcases exec_next hexec with ⟨c, hfault, hraise⟩ | ⟨_, heffect⟩
    · obtain rfl : .registerIndex f = c := Status.fault.inj (congrArg State.status hraise)
      exact ⟨f, firstBadField_of_instrFault hfault⟩
    · have hnotFault := effect_isFault_of_running hrunning i
      rw [← heffect] at hnotFault
      cases hnotFault

end Sys2Proof.Machine
end

section
/-! Memory accesses, the stack and the channels (20_memory.md section 4; 44_call_and_stack.md R102, R103; 45_io.md R105,
R106): a read after a write, a push, a pop, and one value written or read. -/

namespace Sys2Proof.Machine

/-! ### A read after a write (20_memory.md section 4) -/

theorem wordAt_writeWord_same (m : Memory) (a : Nat) (v : Word) : wordAt (m.writeWord a v) a = v :=
  Memory.readWord_writeWord_same m a v

/-- Two word slots are one or do not overlap. -/
theorem memRead_storeWord_of_ne (s : State) {a b : Word} (v : Word) (haligned : a.toNat % 4 = 0) (hne : b ≠ a) :
    (s.storeWord a.toNat v).memRead b = s.memRead b := by
  rcases addressFault_cases b with ⟨_, hb, hbound⟩ | ⟨c, _, herror⟩
  · have hdisjoint : b.toNat + 4 ≤ a.toNat ∨ a.toNat + 4 ≤ b.toNat := by
      have htoNat : b.toNat ≠ a.toNat := fun h => hne (BitVec.eq_of_toNat_eq h)
      omega
    rw [memRead_eq_wordAt _ hb hbound, memRead_eq_wordAt _ hb hbound]
    exact congrArg Except.ok (Memory.readWord_writeWord_of_disjoint s.mem v hdisjoint)
  · rw [memRead_error_iff.mpr herror, memRead_error_iff.mpr herror]

theorem memRead_storeWord_same (s : State) {a : Word} (v : Word) (haligned : a.toNat % 4 = 0) (hbound : a.toNat ≤ 1020) :
    (s.storeWord a.toNat v).memRead a = .ok v :=
  memRead_ok_iff.mpr ⟨haligned, hbound, (Memory.readWord_writeWord_same s.mem a.toNat v).symm⟩

/-! ### Push and pop -/

/-- The state after a push of register `a` (R102; decision D17). -/
def pushed (a : Fin 17) (s : State) : State :=
  ((s.storeWord (s.sp - 4).toNat (if a = Config.sp then s.sp - 4 else s.readX a)).writeX Config.sp (s.sp - 4)).advance

/-- The state after a pop into register `a` (R103; decision D17). -/
def popped (a : Fin 17) (s : State) : State :=
  ((s.writeX a (wordAt s.mem s.sp.toNat)).writeX Config.sp ((s.writeX a (wordAt s.mem s.sp.toNat)).sp + 4)).advance

theorem exec_pushl_of_names {r1 : RegField} {a : Fin 17} (s : State) (ha : Names r1 a) :
    exec (.pushl r1) s = faultOr (addressFault (s.sp - 4)) s (pushed a s) := by
  rw [exec_eq_of_dataAddress rfl (by simpa [Instr.usedRegisters] using ha.2), effect, namedRegister_of_names ha]
  rfl

theorem exec_popl_of_names {r1 : RegField} {a : Fin 17} (s : State) (ha : Names r1 a) :
    exec (.popl r1) s = faultOr (addressFault s.sp) s (popped a s) := by
  rw [exec_eq_of_dataAddress rfl (by simpa [Instr.usedRegisters] using ha.2), effect, namedRegister_of_names ha]
  rfl

/-- The increment comes after the load, also into the stack pointer itself. -/
theorem popped_x (a : Fin 17) (s : State) :
    (popped a s).x =
      if a = 6 then s.x.set 6 (wordAt s.mem s.sp.toNat + 4)
      else (s.x.set a (wordAt s.mem s.sp.toNat)).set 6 (s.sp + 4) := by
  by_cases ha : a = Config.sp
  · subst ha
    rw [if_pos rfl, popped, State.sp_writeX, if_pos rfl, State.writeX_writeX_same]
    rfl
  · rw [if_neg ha, popped, State.sp_writeX, if_neg ha]
    rfl

/-! ### The channels -/

theorem exec_printr_of_names {r1 : RegField} {a : Fin 17} (s : State) (ha : Names r1 a) :
    exec (.printr r1) s = .next (s.emit (s.readX a)).advance := by
  rw [exec_eq_effect_of_names rfl rfl ha, effect, namedRegister_of_names ha]

theorem exec_readr_of_nextInput {r1 : RegField} {a : Fin 17} {s : State} {v : Word} (ha : Names r1 a)
    (hv : s.nextInput = some v) : exec (.readr r1) s = .next (s.consumeInput.writeX a v).advance := by
  rw [exec_eq_effect_of_names rfl rfl ha, effect_readr_of_nextInput hv, namedRegister_of_names ha]

theorem exec_readr_of_no_input {r1 : RegField} {s : State} (hr1 : r1.toNat < 16) (hv : s.nextInput = none) :
    exec (.readr r1) s = .next s := by
  rw [exec_eq_effect_of_names rfl rfl (names_namedRegister hr1), effect_readr_of_no_input hv]

/-- A delivered value is the next one once all before it are consumed. -/
theorem nextInput_deliver {s : State} (h : s.inpos = s.input.length) (v : Word) : (s.deliver v).nextInput = some v := by
  show (s.input ++ [v])[s.inpos]? = some v
  rw [h, List.getElem?_concat_length]

/-! ### The claims -/

/-- Settles O26: the write's own address passes its check; any other one is refused as before or is that of another
slot. -/
theorem readReturnsLatestWrite : Obligations.ReadReturnsLatestWrite := by
  unfold Obligations.ReadReturnsLatestWrite
  intro s t a b v hwrite
  obtain ⟨haligned, hbound, rfl⟩ := memWrite_ok_iff.mp hwrite
  split
  · next h =>
    subst h
    exact memRead_storeWord_same s v haligned hbound
  · next h => exact memRead_storeWord_of_ne s v haligned h

/-- Settles O54: the hold is the case without a value; the delivered value is then the next one. -/
theorem heldReadrCompletesOnDelivery : Obligations.HeldReadrCompletesOnDelivery := by
  unfold Obligations.HeldReadrCompletesOnDelivery
  intro r1 a v s ha hinpos
  have hempty : s.nextInput = none := nextInput_eq_none_iff.mpr (Nat.le_of_eq hinpos.symm)
  exact ⟨exec_readr_of_no_input ha.2 hempty, exec_readr_of_nextInput ha (nextInput_deliver hinpos v)⟩

/-- Settles O20: `pushl` is a store at `sp - 4`, whose address check decides among its outcomes. -/
theorem pushlStoresBelowStackPointer : Obligations.PushlStoresBelowStackPointer := by
  unfold Obligations.PushlStoresBelowStackPointer
  intro r1 r2 bit16 imm s nsp hnsp
  obtain rfl : nsp = s.sp - 4 := hnsp
  refine ⟨decode_wordOf 18 r1 r2 bit16 imm, fun a ha => ?access, fun hr1 => exec_of_first_field_ge s rfl hr1⟩
  case access =>
    rw [exec_pushl_of_names s ha]
    refine ⟨fun haligned hbound => ?valid, faultOr_addressFault_of_misaligned s _, faultOr_addressFault_of_beyond s _⟩
    case valid =>
      rw [faultOr_addressFault_of_valid s _ haligned hbound]
      exact ⟨_, rfl, storesWord_writeWord s.mem _ _⟩

/-- Settles O21: `popl` is a load at `sp`, whose address check decides among its outcomes. -/
theorem poplLoadsAtStackPointer : Obligations.PoplLoadsAtStackPointer := by
  unfold Obligations.PoplLoadsAtStackPointer
  intro r1 r2 bit16 imm s sp hsp
  obtain rfl : sp = s.sp := hsp
  refine ⟨decode_wordOf 19 r1 r2 bit16 imm, fun a ha => ?access, fun hr1 => exec_of_first_field_ge s rfl hr1⟩
  case access =>
    rw [exec_popl_of_names s ha]
    refine ⟨fun haligned hbound => ?valid, faultOr_addressFault_of_misaligned s _, faultOr_addressFault_of_beyond s _⟩
    case valid =>
      rw [faultOr_addressFault_of_valid s _ haligned hbound, ← popped_x]
      rfl

/-- Settles O22: an effect on registers and the output alone, behind the check of one field. -/
theorem printrAppendsRegister : Obligations.PrintrAppendsRegister := by
  unfold Obligations.PrintrAppendsRegister
  intro r1 r2 bit16 imm s
  exact ⟨decode_wordOf 20 r1 r2 bit16 imm, fun a ha => exec_printr_of_names s ha,
    fun hr1 => exec_of_first_field_ge s rfl hr1⟩

/-- Settles O23: past the register check, the outcome is decided by whether the next value is there. -/
theorem readrConsumesOrHolds : Obligations.ReadrConsumesOrHolds := by
  unfold Obligations.ReadrConsumesOrHolds
  intro r1 r2 bit16 imm s
  refine ⟨decode_wordOf 21 r1 r2 bit16 imm, fun a v ha hv => exec_readr_of_nextInput ha hv,
    fun hr1 hempty => exec_readr_of_no_input hr1 (nextInput_eq_none_iff.mpr hempty),
    fun hr1 => exec_of_first_field_ge s rfl hr1⟩

end Sys2Proof.Machine
end

section
/-! Instructions one after the other whose effects cancel or combine (44_call_and_stack.md R101 to R103;
70_reset_and_hazards.md section 3): pushes and pops, a call and a return, a constant printed, a store and a load. -/

namespace Sys2Proof.Machine

/-! ### The stack pointer inside the memory -/

theorem toNat_sub_four {v : Word} (h : 4 ≤ v.toNat) : (v - 4).toNat = v.toNat - 4 := by bv_omega

theorem exec_pushl_of_room {r1 : RegField} {a : Fin 17} {s : State} (ha : Names r1 a) (haligned : s.sp.toNat % 4 = 0)
    (hroom : 4 ≤ s.sp.toNat) (hbound : s.sp.toNat ≤ 1024) : exec (.pushl r1) s = .next (pushed a s) := by
  have hnsp : (s.sp - 4).toNat = s.sp.toNat - 4 := toNat_sub_four hroom
  rw [exec_pushl_of_names s ha, faultOr_addressFault_of_valid s _ (by omega) (by omega)]

theorem exec_popl_of_valid {r1 : RegField} {a : Fin 17} {s : State} (ha : Names r1 a) (haligned : s.sp.toNat % 4 = 0)
    (hbound : s.sp.toNat ≤ 1020) : exec (.popl r1) s = .next (popped a s) := by
  rw [exec_popl_of_names s ha, faultOr_addressFault_of_valid s _ haligned hbound]

/-! ### A push undone -/

theorem pushed_sp (a : Fin 17) (s : State) : (pushed a s).sp = s.sp - 4 := State.readX_writeX_same _ _ _

theorem pushed_readX_of_ne {a j : Fin 17} (s : State) (h : j ≠ Config.sp) : (pushed a s).readX j = s.readX j :=
  State.readX_writeX_of_ne (s.storeWord _ _) _ h

theorem pushed_pc (a : Fin 17) (s : State) : (pushed a s).pc = s.pc + 4 := rfl

theorem pushed_readByte {a : Fin 17} {s : State} {b : Nat} (h : b < (s.sp - 4).toNat ∨ (s.sp - 4).toNat + 4 ≤ b) :
    (pushed a s).mem.readByte b = s.mem.readByte b :=
  Memory.readByte_writeWord_outside s.mem _ h

theorem wordAt_pushed (a : Fin 17) (s : State) :
    wordAt (pushed a s).mem (s.sp - 4).toNat = if a = Config.sp then s.sp - 4 else s.readX a :=
  wordAt_writeWord_same s.mem _ _

theorem popped_sp (a : Fin 17) (s : State) :
    (popped a s).sp = (if a = Config.sp then wordAt s.mem s.sp.toNat else s.sp) + 4 := by
  rw [popped, State.sp_advance, State.sp, State.readX_writeX_same, State.sp_writeX]

theorem popped_pc (a : Fin 17) (s : State) : (popped a s).pc = s.pc + 4 := rfl

theorem popped_readX_of_ne {a j : Fin 17} (s : State) (h : j ≠ Config.sp) :
    (popped a s).readX j = if j = a then wordAt s.mem s.sp.toNat else s.readX j := by
  rw [popped, State.readX_advance, State.readX_writeX_of_ne _ _ h, State.readX_writeX]

/-- A pop into the register that was pushed restores the file, when the registers and the slot are as the push left them:
the stored word is the register's, or for the stack pointer the decremented one, which the pop increments. -/
theorem popped_x_of_pushed {a : Fin 17} {s t : State} (hx : t.x = (pushed a s).x)
    (hslot : wordAt t.mem (s.sp - 4).toNat = wordAt (pushed a s).mem (s.sp - 4).toNat) : (popped a t).x = s.x := by
  have hread (j : Fin 17) : t.readX j = (pushed a s).readX j := by rw [State.readX, State.readX, hx]
  have hsp : t.sp = s.sp - 4 := (hread Config.sp).trans (pushed_sp a s)
  have hword : wordAt t.mem t.sp.toNat = if a = Config.sp then s.sp - 4 else s.readX a := by
    rw [hsp, hslot, wordAt_pushed]
  refine State.x_ext fun j => ?_
  by_cases hj : j = Config.sp
  · subst hj
    have hrestored : s.sp - 4 + 4 = s.sp := BitVec.sub_add_cancel s.sp 4
    refine (popped_sp a t).trans ?_
    rw [hword, hsp]
    split <;> exact hrestored
  · rw [popped_readX_of_ne t hj, hword]
    split
    · next hja => rw [if_neg (hja ▸ hj), hja]
    · rw [hread, pushed_readX_of_ne s hj]

theorem wordAt_congr {m m' : Memory} {a : Nat} (h : ∀ b, a ≤ b → b < a + 4 → m.readByte b = m'.readByte b) :
    wordAt m a = wordAt m' a := by
  rw [wordAt, wordAt, h a (by omega) (by omega), h (a + 1) (by omega) (by omega), h (a + 2) (by omega) (by omega),
    h (a + 3) (by omega) (by omega)]

/-! ### Sequences -/

theorem execAll_append_of_running {is rest : List Instr} {s t : State} (hexec : execAll is s = .next t)
    (hrunning : t.status = .running) : execAll (is ++ rest) s = execAll rest t := by
  induction is generalizing s with
  | nil => cases hexec; rfl
  | cons i is ih =>
    obtain ⟨u, hfirst⟩ := exists_exec_next i s
    by_cases hu : u.status = .running
    · rw [execAll_cons_of_running hfirst hu] at hexec
      rw [List.cons_append, execAll_cons_of_running hfirst hu, ih hexec]
    · rw [execAll, hfirst] at hexec
      obtain rfl : u = t := Host.Outcome.next.inj ((if_neg hu).symm.trans hexec)
      exact absurd hrunning hu

theorem execAll_singleton_of_running {i : Instr} {s t : State} (hexec : exec i s = .next t)
    (hrunning : t.status = .running) : execAll [i] s = .next t :=
  execAll_cons_of_running hexec hrunning

/-- The pushes and pops of `n + 1` are those of `n` between one push and one pop. -/
theorem replicate_succ_append_replicate_succ {α : Type} (n : Nat) (x y : α) :
    List.replicate (n + 1) x ++ List.replicate (n + 1) y = x :: (List.replicate n x ++ List.replicate n y ++ [y]) := by
  rw [List.replicate_succ, List.replicate_succ' (a := y), List.cons_append, List.append_assoc]

/-- What the pushes and pops leave, for the induction: the outer pair's slot lies above those of the inner pairs. -/
theorem execAll_pushes_pops {r : RegField} {a : Fin 17} (ha : Names r a) (n : Nat) (s : State)
    (hrunning : s.status = .running) (haligned : s.sp.toNat % 4 = 0) (hbound : s.sp.toNat ≤ 1024)
    (hroom : 4 * n ≤ s.sp.toNat) :
    ∃ t, execAll (List.replicate n (.pushl r) ++ List.replicate n (.popl r)) s = .next t ∧
      t.x = s.x ∧ t.status = .running ∧ t.pc = s.pc + BitVec.ofNat 32 (8 * n) ∧
      ∀ b, b + 4 * n < s.sp.toNat ∨ s.sp.toNat ≤ b → t.mem.readByte b = s.mem.readByte b := by
  induction n generalizing s with
  | zero => exact ⟨s, rfl, rfl, hrunning, (BitVec.add_zero s.pc).symm, fun _ _ => rfl⟩
  | succ n ih =>
    have hnsp : (s.sp - 4).toNat = s.sp.toNat - 4 := toNat_sub_four (by omega)
    have hsp : (pushed a s).sp.toNat = s.sp.toNat - 4 := by rw [pushed_sp, hnsp]
    obtain ⟨t, hexec, hx, ht, hpc, hbytes⟩ :=
      ih (pushed a s) hrunning (by omega) (by omega) (by omega)
    rw [hsp] at hbytes
    have htsp : t.sp = s.sp - 4 := by rw [← pushed_sp a s, State.sp, State.sp, State.readX, State.readX, hx]
    have hslot : wordAt t.mem (s.sp - 4).toNat = wordAt (pushed a s).mem (s.sp - 4).toNat :=
      wordAt_congr fun b hb _ => hbytes b (.inr (by omega))
    have hpop : exec (.popl r) t = .next (popped a t) :=
      exec_popl_of_valid ha (by rw [htsp]; omega) (by rw [htsp]; omega)
    refine ⟨popped a t, ?_, popped_x_of_pushed hx hslot, ht, ?_, fun b hb => ?_⟩
    · rw [replicate_succ_append_replicate_succ,
        execAll_cons_of_running (exec_pushl_of_room ha haligned (by omega) hbound) hrunning,
        execAll_append_of_running hexec ht, execAll_singleton_of_running hpop ht]
    · have height : BitVec.ofNat 32 8 = 4 + 4 := rfl
      rw [popped_pc, hpc, pushed_pc, Nat.mul_succ, BitVec.ofNat_add, height]
      ring
    · exact (hbytes b (by omega)).trans (pushed_readByte (by omega))

/-! ### Call and return -/

/-- The state after a `call` (R100). -/
def called (imm : Imm16) (s : State) : State :=
  ((s.storeWord (s.sp - 4).toNat (followingPc s.pc)).writeX Config.sp (s.sp - 4)).goto (branchTarget s.pc imm)

theorem exec_call_of_room (imm : Imm16) {s : State} (haligned : s.sp.toNat % 4 = 0) (hroom : 4 ≤ s.sp.toNat)
    (hbound : s.sp.toNat ≤ 1024) : exec (.call imm) s = .next (called imm s) := by
  have hnsp : (s.sp - 4).toNat = s.sp.toNat - 4 := toNat_sub_four hroom
  rw [exec_call, faultOr_addressFault_of_valid s _ (by omega) (by omega)]
  rfl

theorem called_sp (imm : Imm16) (s : State) : (called imm s).sp = s.sp - 4 := State.readX_writeX_same _ _ _

/-- Writing back the value a register had restores the file. -/
theorem writeX_writeX_readX_x (s : State) (i : Fin 17) (v : Word) : ((s.writeX i v).writeX i (s.readX i)).x = s.x := by
  refine State.x_ext fun j => ?_
  rw [State.writeX_writeX_same, State.readX_writeX]
  split
  · next h => rw [h]
  · rfl

/-! ### The claims -/

/-- Settles O50, by induction on the number of pairs. -/
theorem pushesThenPopsRestore : Obligations.PushesThenPopsRestore := by
  unfold Obligations.PushesThenPopsRestore
  exact fun r n s hr hrunning haligned hbound hroom =>
    execAll_pushes_pops (names_namedRegister hr) n s hrunning haligned hbound hroom

/-- Settles O51: the stack pointer after the call is below STACK_TOP, so the `ret` pops the word the call stored. -/
theorem callThenRetReturns : Obligations.CallThenRetReturns := by
  unfold Obligations.CallThenRetReturns
  intro imm s retPc haligned hroom hbound
  have hnsp : (s.sp - 4).toNat = s.sp.toNat - 4 := toNat_sub_four hroom
  have hsp : ((called imm s).goto retPc).sp = s.sp - 4 := called_sp imm s
  have htop : ((called imm s).goto retPc).sp ≠ Config.stackTop := by
    intro h
    have htoNat : (s.sp - 4).toNat = 1024 := by rw [← hsp, h]; rfl
    omega
  have hret := exec_ret_of_ne htop
  rw [hsp, faultOr_addressFault_of_valid _ _ (by omega) (by omega), BitVec.sub_add_cancel] at hret
  exact ⟨_, _, exec_call_of_room imm haligned hroom hbound, hret, wordAt_writeWord_same s.mem _ _,
    writeX_writeX_readX_x s Config.sp (s.sp - 4), rfl⟩

/-- Settles O52: `printr` reads the register that `movl_imm_reg` wrote. -/
theorem loadConstantThenPrint : Obligations.LoadConstantThenPrint := by
  unfold Obligations.LoadConstantThenPrint
  intro r imm s hr hrunning
  have ha : Names r (namedRegister r) := names_namedRegister hr
  refine ⟨_, (execAll_cons_of_running (exec_movlImmReg_of_names imm s ha) hrunning).trans
    (execAll_singleton_of_running (exec_printr_of_names _ ha) hrunning), ?_⟩
  rw [State.advance_out, State.emit_out, State.readX_advance, State.readX_writeX_same, zext32, ← BitVec.ofNat_toNat]
  rfl

/-- Settles O53: the store leaves the base as it was, so the load finds the word at the same address. -/
theorem storeThenLoadCopies : Obligations.StoreThenLoadCopies := by
  unfold Obligations.StoreThenLoadCopies
  intro rd rb rc d b c imm s addr hd hb hc hrunning haddr haligned hbound
  obtain rfl : addr = (effectiveAddress (s.readX b) imm).toNat := haddr.trans (toNat_effectiveAddress _ _).symm
  have hstore := exec_movlRegDeref_of_names imm s hd hb
  rw [faultOr_addressFault_of_valid s _ haligned hbound] at hstore
  have hload := exec_movlDerefReg_of_names imm
    (s.storeWord (effectiveAddress (s.readX b) imm).toNat (s.readX d)).advance hb hc
  replace hload := hload.trans (faultOr_addressFault_of_valid _ _ haligned hbound)
  refine ⟨_, (execAll_cons_of_running hstore hrunning).trans (execAll_singleton_of_running hload hrunning), ?x, ?pc⟩
  case x => exact congrArg (fun v => s.x.set c v) (wordAt_writeWord_same s.mem _ (s.readX d))
  case pc => exact BitVec.add_assoc s.pc 4 4

end Sys2Proof.Machine
end

section
/-! The host's side (10_state.md section 6; 45_io.md R105, R106; decisions D14, D15, D19): what it may observe of a state,
and the reading of the decimal numerals it prints, from a digit through a token to a whole text. -/

namespace Sys2Proof.Machine

/-! ### The view -/

theorem hostView_of_running {s : State} (h : s.status = .running) : hostView s = .running s.out := by
  rw [hostView, h]

theorem hostView_of_not_running {s : State} (h : s.status ≠ .running) :
    hostView s = .ended s.status s.out s.x s.pc s.mem := by
  unfold hostView
  split
  · next hrunning => exact absurd hrunning h
  · rfl

/-! ### Digits -/

/-- The last digit is the least significant one. -/
theorem digitsValue_concat {cs : List Char} {c : Char} (hc : c.isDigit = true) {acc n : Nat}
    (h : digitsValue acc cs = some n) : digitsValue acc (cs ++ [c]) = some (10 * n + (c.toNat - '0'.toNat)) := by
  induction cs generalizing acc with
  | nil =>
    cases h
    exact if_pos hc
  | cons d cs ih =>
    rw [digitsValue] at h
    split at h
    · next hd => rw [List.cons_append, digitsValue, if_pos hd, ih h]
    · cases h

theorem isDigit_digitChar_of_lt {d : Nat} (h : d < 10) : d.digitChar.isDigit = true := by
  rw [Nat.isDigit_digitChar, decide_eq_true h]

/-- Reading undoes printing, by the numeral's recursion on the quotient by ten. -/
theorem digitsValue_toDigits (n : Nat) : digitsValue 0 (Nat.toDigits 10 n) = some n := by
  induction n using Nat.strongRecOn with
  | ind n ih =>
    by_cases hn : n < 10
    · rw [Nat.toDigits_of_lt_base hn]
      have hvalue := digitsValue_concat (isDigit_digitChar_of_lt hn) (rfl : digitsValue 0 [] = some 0)
      rwa [show n.digitChar.toNat - '0'.toNat = n from Nat.toNat_digitChar_sub_48_of_lt_ten hn, Nat.mul_zero,
        Nat.zero_add] at hvalue
    · have hdigit : n % 10 < 10 := Nat.mod_lt n (by decide)
      rw [Nat.toDigits_of_base_le (by decide) (Nat.not_lt.mp hn),
        digitsValue_concat (isDigit_digitChar_of_lt hdigit) (ih (n / 10) (by omega)),
        show (n % 10).digitChar.toNat - '0'.toNat = n % 10 from Nat.toNat_digitChar_sub_48_of_lt_ten hdigit,
        Nat.div_add_mod]

theorem isDigit_of_mem_toDigits_ten {n : Nat} {c : Char} (h : c ∈ Nat.toDigits 10 n) : c.isDigit = true :=
  Nat.isDigit_of_mem_toDigits (by decide) (by decide) h

/-! ### Tokens (log 18) -/

theorem parseDecimal_of_digits {cs : List Char} {n : Nat} (hne : cs ≠ []) (hdigits : ∀ c ∈ cs, c.isDigit = true)
    (h : digitsValue 0 cs = some n) : parseDecimal cs = some (n : Int) := by
  unfold parseDecimal
  split
  · exact absurd rfl hne
  · exact absurd (hdigits '-' (.head _)) (by decide)
  · exact absurd (hdigits '-' (.head _)) (by decide)
  · rw [h]
    rfl

theorem parseDecimal_minus {cs : List Char} {n : Nat} (hne : cs ≠ []) (h : digitsValue 0 cs = some n) :
    parseDecimal ('-' :: cs) = some (-(n : Int)) := by
  cases cs with
  | nil => exact absurd rfl hne
  | cons c cs =>
    rw [parseDecimal, h]
    · rfl
    · exact List.cons_ne_nil c cs

theorem parseDecimal_decimalText (n : Int) : parseDecimal (decimalText n) = some n := by
  unfold decimalText
  split
  · next hneg =>
    rw [parseDecimal_minus Nat.toDigits_ne_nil (digitsValue_toDigits n.natAbs)]
    exact congrArg some (by omega)
  · next hnonneg =>
    rw [parseDecimal_of_digits Nat.toDigits_ne_nil (fun _ => isDigit_of_mem_toDigits_ten) (digitsValue_toDigits n.natAbs)]
    exact congrArg some (by omega)

/-- The numeral of a pattern is in the range the host delivers. -/
theorem tokenValue_decimalText (v : Word) : tokenValue (decimalText v.toInt) = some v := by
  have hlow : -2 ^ 31 ≤ v.toInt := v.le_toInt
  have hhigh : v.toInt ≤ 2 ^ 31 - 1 := Int.le_sub_one_of_lt v.toInt_lt
  rw [tokenValue, parseDecimal_decimalText]
  show (if -2 ^ 31 ≤ v.toInt ∧ v.toInt ≤ 2 ^ 31 - 1 then _ else _) = _
  rw [if_pos ⟨hlow, hhigh⟩, BitVec.ofInt_toInt]

/-! ### Texts -/

theorem not_isWhitespace_of_isDigit {c : Char} (h : c.isDigit = true) : c.isWhitespace = false := by
  rw [← Bool.not_eq_true]
  intro hspace
  simp only [Char.isWhitespace, Bool.or_eq_true, decide_eq_true_iff] at hspace
  rcases hspace with ((rfl | rfl) | rfl) | rfl <;> exact absurd h (by decide)

theorem not_isWhitespace_of_mem_decimalText {n : Int} {c : Char} (h : c ∈ decimalText n) : c.isWhitespace = false := by
  unfold decimalText at h
  split at h
  · rcases List.mem_cons.mp h with rfl | hdigit
    · decide
    · exact not_isWhitespace_of_isDigit (isDigit_of_mem_toDigits_ten hdigit)
  · exact not_isWhitespace_of_isDigit (isDigit_of_mem_toDigits_ten h)

theorem decimalText_ne_nil (n : Int) : decimalText n ≠ [] := by
  unfold decimalText
  split
  · exact List.cons_ne_nil _ _
  · exact Nat.toDigits_ne_nil

/-- Characters that are no white space are collected until the space that ends the token. -/
theorem tokensFrom_append_space {token : List Char} (rest current : List Char)
    (htoken : ∀ c ∈ token, c.isWhitespace = false) (hne : current.reverse ++ token ≠ []) :
    tokensFrom current (token ++ ' ' :: rest) = (current.reverse ++ token) :: tokensFrom [] rest := by
  induction token generalizing current with
  | nil =>
    rw [List.append_nil, ne_eq, List.reverse_eq_nil_iff, ← List.isEmpty_iff] at hne
    rw [List.nil_append, tokensFrom, if_pos (by decide), if_neg hne, List.append_nil]
  | cons c token ih =>
    have hc : ¬ c.isWhitespace = true := Bool.not_eq_true _ ▸ htoken c (.head _)
    have hcollected : (c :: current).reverse ++ token = current.reverse ++ c :: token := by
      rw [List.reverse_cons, List.append_assoc, List.singleton_append]
    rw [List.cons_append, tokensFrom, if_neg hc, ih _ (fun d hd => htoken d (.tail _ hd)) (hcollected ▸ hne), hcollected]

/-- The first numeral of a text is its first value. -/
theorem inputValues_decimalText_append (v : Word) (rest : List Char) :
    inputValues (decimalText v.toInt ++ ' ' :: rest) = v :: inputValues rest := by
  rw [inputValues, tokensFrom_append_space rest [] (fun _ => not_isWhitespace_of_mem_decimalText)
    (decimalText_ne_nil v.toInt), List.reverse_nil, List.nil_append, valuesBeforeBadToken, tokenValue_decimalText]
  rfl

/-! ### The claims -/

/-- Settles O56, by induction on the list of patterns. -/
theorem printedDecimalsReadBack : Obligations.PrintedDecimalsReadBack := by
  unfold Obligations.PrintedDecimalsReadBack
  intro vs
  induction vs with
  | nil => rfl
  | cons v vs ih =>
    rw [List.flatMap_cons, List.append_assoc, List.singleton_append, inputValues_decimalText_append, ih]

/-- Settles O55: the view is the output alone in one case and all five fields in the other. -/
theorem hostSeesOutputThenEndState : Obligations.HostSeesOutputThenEndState := by
  unfold Obligations.HostSeesOutputThenEndState
  refine ⟨fun s h => hostView_of_running h, fun s s' h h' => ?_, fun s h => hostView_of_not_running h, rfl⟩
  rw [hostView_of_running h, hostView_of_running h', HostView.running.injEq]

/-- Settles O57: each of the five lines is computed. -/
theorem printrLineExamples : Obligations.PrintrLineExamples := by
  unfold Obligations.PrintrLineExamples
  decide

end Sys2Proof.Machine
end
